-- ==== Sys2Proof/Word.lean ====
section
/-! DEFINITION. The widths of varint_encoder (R12, R30): bytes, 32-bit registers, 64-bit values. -/

namespace Sys2Proof

/-- A byte is 8 bits (R12). -/
abbrev Byte := BitVec 8

/-- The width of CMD, OFF, BEGIN, END, IBUF_LEN, NOFF, OLEN, CAP and LEN (R30). -/
abbrev Word := BitVec 32

/-- The width of VAL and RES (R30). -/
abbrev DWord := BitVec 64

end Sys2Proof
end

