-- ==== Sys2Proof/Config.lean ====
section
/-! DEFINITION. What is fixed when an instance is built (R10): CAP and IBUF_MAX. LATENCY, HANDSHAKE, RESET_SOURCE
and BASE_MAP are read by no rule (R72, R201, R209, R210) and have no counterpart here. -/

namespace Sys2Proof

/-- The build parameters of one instance (R10); CAP is also the read-only register of R42.
Both lie in 0 to 2^32 - 1 because they are 32 bits wide. -/
structure Build where
  /-- CAP, the sink capacity in bytes. -/
  cap : Word
  /-- IBUF_MAX, the size of IBUF in bytes. -/
  ibufMax : Word
  deriving DecidableEq, Repr

/-- IBUF_MAX is OPEN in the spec (R10, D9, I12): a constant with no body, so no proof can know it. Log entry 4. -/
opaque Config.ibufMax : Word

/-- The default build: CAP = 65535 (R10, D8), IBUF_MAX open (log entry 4). -/
def Build.default : Build := { cap := 65535#32, ibufMax := Config.ibufMax }

end Sys2Proof
end

