-- ==== Sys2Proof/Syntax.lean ====
section
/-! DEFINITION. The commands of VE1: one constructor for each row of spec/opcode_table.json (R3, R82, R83).
A command word carries no operand but its KIND (R88), so no constructor has arguments. -/

namespace Sys2Proof

inductive Instr where
  -- varint encoder and decoder (40_varint.md)
  | encVarint | encSvarint | decLen | decVarint | decSvarint | rawToken
  -- zigzag (41_zigzag.md)
  | zzEnc32 | zzDec32 | zzEnc64 | zzDec64
  -- fixed-width pack and unpack (42_fixed_width.md)
  | packInt32 | packUint32 | packFloat32 | packInt64 | packUint64 | packFloat64
  | unpackInt32 | unpackUint32 | unpackFloat32 | unpackInt64 | unpackUint64 | unpackFloat64
  -- byte sink (43_byte_sink.md)
  | sinkAppend | sinkLen | sinkBytes | sinkSlice | sinkClear
  deriving DecidableEq, Repr

end Sys2Proof
end

