-- ==== Sys2Proof/Machine/Names.lean ====
section
/-! DEFINITION. The names the spec uses: sub-blocks (R1), kinds (R140), status codes (R180), registers and byte spaces
(R30, R60), and the places a model fault names (R46). -/

namespace Sys2Proof.Machine

/-- The ten sub-blocks (R1). -/
inductive SubBlock where
  | varintEncoder | varintDecoder
  | zigzagEncoder32 | zigzagDecoder32 | zigzagEncoder64 | zigzagDecoder64
  | fixedWidth32 | fixedWidth64 | ieee754Passthrough | byteSink
  deriving DecidableEq, Repr

/-- The fixed-width kinds (R140, R83). -/
inductive Kind where
  | int32 | uint32 | float32 | int64 | uint64 | float64
  deriving DecidableEq, Repr

/-- The status of a completed command (R180). -/
inductive Status where
  | ok | malformedVarint | capacityExceeded | outOfRange | unsupportedKind | illegalCommand
  deriving DecidableEq, Repr

/-- The operand registers, written by the host and read by commands (R30). -/
inductive OpReg where
  | val | off | beginReg | endReg | ibufLen
  deriving DecidableEq, Repr

/-- The registers the host may read: R50's, OBUF[0..OLEN) as a whole among them, and CMD by R31 (log entry 8). DEDUCED: the
host reads no operand register, though R32 calls VAL read-write (log entry 19). -/
inductive HostReg where
  | status | res | noff | olen | obuf | cap | cmd
  deriving DecidableEq, Repr

/-- The three byte spaces (R60). -/
inductive Space where
  | ibuf | sink | obuf
  deriving DecidableEq, Repr

/-- The name in a model fault `Unwritten(<name>)` (R46). -/
inductive Place where
  | operand (r : OpReg)
  | result (r : HostReg)
  | byte (sp : Space) (i : Nat)
  deriving DecidableEq, Repr

end Sys2Proof.Machine
end

