-- ==== Sys2Proof/Machine/HostSyntax.lean ====
section
/-! DEFINITION. The host program (R90): lines that are host actions (R50) or commands, host expressions in the notation of
R12 to R15, and the pseudo-instructions of R91. Host variables and labels are numbered names (log entry 6). -/

namespace Sys2Proof.Machine

/-- The value of a host expression or variable: an unbounded integer (R12) or a byte list (R15). -/
inductive Value where
  | int (n : Int)
  | bytes (bs : List Byte)
  deriving DecidableEq, Repr

/-- The width conversions of R13. -/
inductive Conv where
  | s32 | s64 | u32 | u64 | bits32 | bits64 | zext64 | sext64
  deriving DecidableEq, Repr

/-- The binary operators of R14 on N-bit values. -/
inductive BitOp where
  | xor | and | or | shl | ushr | sshr
  deriving DecidableEq, Repr

/-- Host expressions (R90, in the notation of R12 to R15; the grammar is log entry 16). `reg` and `obufAt` may stand in a
condition only. -/
inductive Expr where
  | const (n : Int)
  | var (t : Nat)
  | reg (r : HostReg)
  /-- OBUF[i] (R44, R50). -/
  | obufAt (i : Expr)
  | add (a b : Expr)
  | sub (a b : Expr)
  | mul (a b : Expr)
  | neg (a : Expr)
  | conv (c : Conv) (a : Expr)
  /-- v[hi:lo] (R12), and v[i] as v[i:i]. DESIGN CHOICE: the bit numbers are expressions, as in the w[8i + 7 : 8i] of R64 (log
  entry 16). -/
  | slice (a hi lo : Expr)
  | bit (o : BitOp) (width : Nat) (a b : Expr)
  /-- `~a` on a value of that width (R14). -/
  | compl (width : Nat) (a : Expr)
  /-- `-a` on a value of that width (R14). -/
  | negBits (width : Nat) (a : Expr)
  /-- A list of constant bytes, `[]` among them (R15). -/
  | bytes (bs : List Byte)
  /-- `[b]` for a computed byte (R15); longer lists are made with `append`. -/
  | single (b : Expr)
  /-- `A ++ B` (R15). -/
  | append (a b : Expr)
  /-- `len(L)` (R15). -/
  | len (l : Expr)
  /-- `L[i]` (R15). -/
  | item (l i : Expr)
  /-- `L[i..j)` (R15). -/
  | sublist (l i j : Expr)
  deriving DecidableEq, Repr

/-- Comparisons in a branch condition (R90, log entry 16). -/
inductive Cmp where
  | eq | ne | lt | le
  deriving DecidableEq, Repr

/-- A branch condition over host variables and result registers (R90). -/
inductive Cond where
  | cmp (o : Cmp) (a b : Expr)
  | not (a : Cond)
  | and (a b : Cond)
  | or (a b : Cond)
  deriving DecidableEq, Repr

/-- One line of a host program (R90), or a host action of R50 that R90 gives no line of its own. -/
inductive Line where
  /-- `.word w`: issue an arbitrary command word. -/
  | word (w : Word)
  /-- `MNEMONIC`, `PACK.<kind>`, `UNPACK.<kind>`: issue that command's word. -/
  | command (i : Instr)
  /-- `REG := expr` for VAL, OFF, BEGIN, END, IBUF_LEN. -/
  | write (r : OpReg) (e : Expr)
  /-- write IBUF[i] = b (R50). -/
  | writeIbuf (i b : Expr)
  /-- `IBUF := [b0 b1 ... bk]`, the list an expression of R15. -/
  | setIbuf (l : Expr)
  /-- `IBUF := OBUF`. -/
  | copyObuf
  /-- `t := REG`. -/
  | read (t : Nat) (r : HostReg)
  /-- read OBUF[i] (R50) into `t`. -/
  | readObuf (t : Nat) (i : Expr)
  /-- `t := expr`. -/
  | assign (t : Nat) (e : Expr)
  /-- `label:`. -/
  | label (l : Nat)
  /-- `if COND goto label`. -/
  | branch (c : Cond) (l : Nat)
  /-- `goto label`. -/
  | goto (l : Nat)
  /-- `halt`. -/
  | halt
  deriving DecidableEq, Repr

/-- The pseudo-instructions (R91); `t` and `u` are the host variables the expansion uses. -/
inductive Pseudo where
  | encInt32 (n : Expr)
  | encInt64 (n : Expr)
  | encSint32 (n : Expr) (t : Nat)
  | encSint64 (n : Expr) (t : Nat)
  | decSint32 (t u : Nat)
  | decSint64 (t u : Nat)
  | appendObuf
  | sliceAll (t : Nat)
  deriving DecidableEq, Repr

end Sys2Proof.Machine
end

