-- ==== Sys2Proof/Machine/State.lean ====
section
/-! DEFINITION. The state of one instance (R30) and of its host (R11, R90), the reasons a step stops (R199), and
the state after reset (R49, R200). -/

namespace Sys2Proof.Machine

/-- A byte space: (index, byte) pairs with rising indexes. An unlisted index holds ⊥ (R46; log entry 2). -/
abbrev Mem := List Host.Cell

/-- A register with the bits a read of it gives, and whether anything was written to it since reset. `written = false` is the
spec's ⊥ (R46, R49); the bits then are the value log entry 1 names. CMD, STATUS and the operand registers are never ⊥ again
once written. -/
structure Reg (w : Nat) where
  bits : BitVec w
  written : Bool
  deriving DecidableEq, Repr

/-- The host agent (R11): its program, its place in it, and its variables (R90, R211). -/
structure HostState where
  program : List Line
  pos : Nat
  vars : List (Nat × Value)
  deriving DecidableEq, Repr

/-- The state of R30 and its host. `none` in RES, NOFF or OLEN is the spec's ⊥, which every command writes to those of them it
gives no value (R44, R48) and reset leaves in all three (R49; log entry 3). -/
structure State where
  /-- CAP (R42) and IBUF_MAX (R10). -/
  build : Build
  /-- CMD: the last word issued (R31). -/
  cmd : Reg 32
  /-- VAL (R32). -/
  val : Reg 64
  /-- OFF (R33). -/
  off : Reg 32
  /-- BEGIN (R34). -/
  beginReg : Reg 32
  /-- END (R34). -/
  endReg : Reg 32
  /-- IBUF_LEN (R35). -/
  ibufLen : Reg 32
  /-- IBUF (R36). -/
  ibuf : Mem
  /-- STATUS (R38): every command writes it (R44), so it is ⊥ only before the first command. -/
  status : Reg 8
  /-- RES (R39). -/
  res : Option DWord
  /-- NOFF (R40). -/
  noff : Option Word
  /-- OLEN (R41). -/
  olen : Option Word
  /-- OBUF (R41). -/
  obuf : Mem
  /-- LEN (R43). -/
  len : Word
  /-- SINK, stale bytes included (R45). -/
  sink : Mem
  /-- The host agent (R11). -/
  host : HostState
  deriving DecidableEq, Repr

/-- The model faults (R199): the run stops and stays stopped. -/
inductive Fault where
  /-- R46 `Unwritten(<name>)`, an outcome R199 gives a model. Raised by a command that reads an IBUF or SINK byte holding ⊥
  and by a host read of RES, NOFF or OLEN holding the ⊥ a command wrote there (R44, R46, R91). No register raises it because
  nothing has written it since reset (log entry 1). Safe: the hardware returns some value. -/
  | unwritten (p : Place)
  /-- An index at or past a byte space's size (R60, R72). Raised by block reads in states no run reaches (log entry 13).
  Safe: no such byte exists. -/
  | outsideSpace (sp : Space) (i : Nat)
  deriving DecidableEq, Repr

/-- The refusals (R199): a host action that has no step. -/
inductive Refusal where
  /-- An instruction without a meaning, raised by the dispatch alone. Safe. -/
  | notModelled (mnemonic : String)
  /-- A host write of IBUF_LEN above IBUF_MAX (R52). Safe. -/
  | ibufLenAboveMax (n : Int)
  /-- A host write of IBUF[i] with i outside [0, IBUF_MAX) (R52). Safe. -/
  | ibufIndexOutside (i : Int)
  /-- A host read of OBUF[i] with i outside [0, OLEN) (R52). Safe. -/
  | obufIndexOutside (i : Int)
  /-- A jump to a label the host program lacks (R90; log entry 10). Safe. -/
  | noSuchLabel (l : Nat)
  /-- An expression with a host variable never set (R90; log entry 10). Safe. -/
  | noSuchVariable (t : Nat)
  /-- An expression that names an element a byte list lacks (R15), or a bit with a negative number (R12; log entry 10). Safe. -/
  | noSuchElement (i : Int)
  /-- A byte list where the notation has a number, or a number where it has a list (R12 to R15; log entry 10). Safe. -/
  | wrongSort
  deriving DecidableEq, Repr

/-- The bits a register holds that nothing has written since reset. DESIGN CHOICE: the spec gives none (log entry 1). -/
def resetBits (w : Nat) : BitVec w := 0#w

/-- A register nothing has written since reset (R49), with the value log entry 1 names. -/
def Reg.unwritten (w : Nat) : Reg w := { bits := resetBits w, written := false }

/-- A host with nothing to do (log entry 5). -/
def HostState.idle : HostState := { program := [], pos := 0, vars := [] }

/-- The state of an instance built with `b` right after reset (R49, R200). -/
def State.resetOf (b : Build) : State :=
  { build := b, cmd := .unwritten 32,
    val := .unwritten 64, off := .unwritten 32, beginReg := .unwritten 32, endReg := .unwritten 32, ibufLen := .unwritten 32,
    ibuf := [], status := .unwritten 8, res := none, noff := none, olen := none, obuf := [], len := 0#32, sink := [],
    host := .idle }

/-- The machine right after reset, in the default build. -/
def State.reset : State := State.resetOf Build.default

end Sys2Proof.Machine
end

