-- ==== Sys2Proof/Machine/Flags.lean ====
section
/-! DEFINITION. STATUS, the block's only flag register (R38, R47): the code of each status (R180). -/

namespace Sys2Proof.Machine

/-- The status codes (R180). Codes 0x06 to 0xFF are never written. -/
def Status.code : Status → Byte
  | .ok => 0x00#8
  | .malformedVarint => 0x01#8
  | .capacityExceeded => 0x02#8
  | .outOfRange => 0x03#8
  | .unsupportedKind => 0x04#8
  | .illegalCommand => 0x05#8

end Sys2Proof.Machine
end

