-- ==== Sys2Proof/Machine/Memory.lean ====
section
/-! DEFINITION. Byte spaces as lists in one canonical form: indexes strictly rising, and an unlisted index holds ⊥
(R46, R49; log entry 2). Every entry is a byte, so no entry equals what an unlisted index reads as. -/

namespace Sys2Proof.Machine

/-- The byte at an index, or `none` where it holds ⊥. -/
def Mem.read (m : Mem) (a : Nat) : Option Byte :=
  match m with
  | [] => none
  | (k, b) :: rest => if k = a then some b else Mem.read rest a

/-- Write one byte. -/
def Mem.write (m : Mem) (a : Nat) (b : Byte) : Mem :=
  match m with
  | [] => [(a, b)]
  | (k, c) :: rest =>
    if a < k then (a, b) :: (k, c) :: rest
    else if a = k then (a, b) :: rest
    else (k, c) :: Mem.write rest a b

/-- Write a list of bytes from an index upwards: MemWrite of R16. -/
def Mem.writeList (m : Mem) (a : Nat) (bs : List Byte) : Mem :=
  match bs with
  | [] => m
  | b :: rest => Mem.writeList (Mem.write m a b) (a + 1) rest

/-- The space that holds exactly these bytes from an index upwards, and ⊥ elsewhere. -/
def Mem.ofListFrom (a : Nat) (bs : List Byte) : Mem :=
  match bs with
  | [] => []
  | b :: rest => (a, b) :: Mem.ofListFrom (a + 1) rest

/-- The canonical form: indexes strictly rising. -/
abbrev Mem.wf (m : Mem) : Prop := m.Pairwise (fun x y => x.1 < y.1)

/-- Every listed index lies below a size. -/
abbrev Mem.below (m : Mem) (size : Nat) : Prop := ∀ c ∈ m, c.1 < size

end Sys2Proof.Machine
end

