-- ==== Sys2Proof/Machine/Ops.lean ====
section
/-! DEFINITION. The primitives every command rule uses (R16): reading registers and bytes, completing, raising an
error, and reset. The block has no trap: an error is a completion with its own status (R186, R189). -/

namespace Sys2Proof.Machine

/-- Go on with a result unless the run has stopped. -/
def andThen {α β : Type} (x : Host.Outcome α Fault Refusal) (f : α → Host.Outcome β Fault Refusal) :
    Host.Outcome β Fault Refusal :=
  match x with
  | .next a => f a
  | .fault e => .fault e
  | .refused r => .refused r

/-- The bytes of a space. -/
def State.space (s : State) : Space → Mem
  | .ibuf => s.ibuf
  | .sink => s.sink
  | .obuf => s.obuf

/-- The sizes of R60: IBUF_MAX, CAP, and OBUF_MAX = max(10, CAP) (R10). -/
def spaceSize (b : Build) : Space → Nat
  | .ibuf => b.ibufMax.toNat
  | .sink => b.cap.toNat
  | .obuf => max 10 b.cap.toNat

/-- A register after a write: it holds the value and no longer ⊥. -/
def Reg.holding {w : Nat} (v : BitVec w) : Reg w := { bits := v, written := true }

/-- A command reads an operand register (R16). The register always holds a value (log entry 1); whether the host has
written it is `Operand.written`, and R46's fault for one it has not is `Safety.bottomOperand`. -/
def readOperand {w : Nat} (o : Reg w) : Host.Outcome (BitVec w) Fault Refusal :=
  .next o.bits

/-- Read one byte of a space (R16, R46). -/
def readByte (sp : Space) (a : Nat) (s : State) : Host.Outcome Byte Fault Refusal :=
  if a < spaceSize s.build sp then
    match Mem.read (s.space sp) a with
    | some b => .next b
    | none => .fault (.unwritten (.byte sp a))
  else .fault (.outsideSpace sp a)

/-- MemRead (R16): `n` bytes from index `a`. DESIGN CHOICE: where several of them hold ⊥ the fault names the one with the lowest
index, since R16 and R46 give no order among them (log entry 14). -/
def readBytes (sp : Space) (s : State) (a n : Nat) : Host.Outcome (List Byte) Fault Refusal :=
  match n with
  | 0 => .next []
  | n + 1 => andThen (readByte sp a s) fun b => andThen (readBytes sp s (a + 1) n) fun bs => .next (b :: bs)

/-- What a command's rule lists under "result registers written" (R17); a register left out receives ⊥ (R44). -/
structure Results where
  res : Option DWord := none
  noff : Option Word := none
  bytes : Option (List Byte) := none
  deriving DecidableEq, Repr

/-- End a command: STATUS gets its code, and every other result register its value or ⊥ (R44, R63). -/
def finish (st : Status) (r : Results) (s : State) : State :=
  { s with
    status := .holding st.code
    res := r.res
    noff := r.noff
    olen := r.bytes.map fun bs => BitVec.ofNat 32 bs.length
    obuf := Mem.ofListFrom 0 (r.bytes.getD []) }

/-- `complete` of R16. -/
def complete (r : Results) (s : State) : State := finish .ok r s

/-- `raise E` of R16: the error status, ⊥ in every other result register, and no other effect (R186). -/
def raise (e : Status) (s : State) : State := finish e {} s

/-- CMD takes the word issued (R31). -/
def setCmd (w : Word) (s : State) : State := { s with cmd := .holding w }

/-- LEN <- n (R43). -/
def setLen (n : Word) (s : State) : State := { s with len := n }

/-- MemWrite(SINK, a, len(bs), bs) (R16, R62). -/
def writeSink (a : Nat) (bs : List Byte) (s : State) : State := { s with sink := Mem.writeList s.sink a bs }

/-- The platform asserts reset (R200, R201): every piece of the block's state takes its reset value and CAP keeps its
build value. The host is another agent and keeps its program and variables (log entry 12). -/
def assertReset (s : State) : State := { State.resetOf s.build with host := s.host }

end Sys2Proof.Machine
end

