-- ==== Sys2Proof/Machine/Operands.lean ====
section
/-! DEFINITION. How the commands read their operands (R32 to R36, R88), and the data formats of the spec: varints
(R100 to R103) and little-endian words (R64). -/

namespace Sys2Proof.Machine

/-- VAL, all 64 bits (R32). -/
def readVal (s : State) : Host.Outcome DWord Fault Refusal := readOperand s.val

/-- VAL[31:0] (R32). -/
def readVal32 (s : State) : Host.Outcome Word Fault Refusal :=
  andThen (readOperand s.val) fun v => .next (v.extractLsb' 0 32)

/-- OFF (R33). -/
def readOff (s : State) : Host.Outcome Word Fault Refusal := readOperand s.off

/-- IBUF_LEN (R35). -/
def readIbufLen (s : State) : Host.Outcome Word Fault Refusal := readOperand s.ibufLen

/-- BEGIN (R34). -/
def readBegin (s : State) : Host.Outcome Word Fault Refusal := readOperand s.beginReg

/-- END (R34). -/
def readEnd (s : State) : Host.Outcome Word Fault Refusal := readOperand s.endReg

/-- `rem` of R102 and R149: the bytes from OFF to IBUF_LEN, never negative. -/
def remaining (off len : Word) : Nat := len.toNat - off.toNat

/-- The loop of R101, with the number of iterations left. -/
def varintLoop : Nat → DWord → List Byte
  | 0, _ => []
  | k + 1, v =>
    if v < 0x80#64 then [v.extractLsb' 0 8]
    else (0x80#8 ||| (v.extractLsb' 0 7).setWidth 8) :: varintLoop k (v >>> 7)

/-- varint_bytes(v) (R101): at most ten iterations. -/
def varintBytes (v : DWord) : List Byte := varintLoop 10 v

/-- The loop of R102 at index `i`, with the number of iterations left: `none` is Malformed. -/
def scanLoop (s : State) (off rem : Nat) : Nat → Nat → Host.Outcome (Option Nat) Fault Refusal
  | 0, _ => .next none
  | k + 1, i =>
    if rem ≤ i then .next none
    else andThen (readByte .ibuf (off + i) s) fun b =>
      if b.getLsbD 7 = false then .next (some (i + 1)) else scanLoop s off rem k (i + 1)

/-- ScanLen(OFF) (R102): at most ten bytes, none at or past IBUF_LEN. -/
def scanLen (s : State) (off len : Word) : Host.Outcome (Option Nat) Fault Refusal :=
  scanLoop s off.toNat (remaining off len) 10 0

/-- The sum of R103, unbounded, in Horner form: each byte's low seven bits times 2^(7i). -/
def varintSum : List Byte → Nat
  | [] => 0
  | b :: bs => (b.extractLsb' 0 7).toNat + 2 ^ 7 * varintSum bs

/-- varint_value(L) (R103): the sum modulo 2^64. -/
def varintValue (bs : List Byte) : DWord := BitVec.ofNat 64 (varintSum bs)

/-- le_bytes_N(w) (R64): byte `i` is w[8i+7 : 8i]. -/
def leBytes (n : Nat) {w : Nat} (v : BitVec w) : List Byte :=
  (List.range n).map fun i => v.extractLsb' (8 * i) 8

/-- The sum of R64 in Horner form: L[i] times 2^(8i). -/
def leSum : List Byte → Nat
  | [] => 0
  | b :: bs => b.toNat + 2 ^ 8 * leSum bs

/-- le_word_N(L) (R64): bytes past the list are zero. -/
def leWord (w : Nat) (bs : List Byte) : BitVec w := BitVec.ofNat w (leSum bs)

/-- W of R140, in bytes. -/
def Kind.width : Kind → Nat
  | .int32 => 4
  | .uint32 => 4
  | .float32 => 4
  | .int64 => 8
  | .uint64 => 8
  | .float64 => 8

/-- The bytes PACK emits (R142). -/
def Kind.pack : Kind → DWord → List Byte
  | .int32, v => leBytes 4 (v.extractLsb' 0 32)
  | .uint32, v => leBytes 4 (v.extractLsb' 0 32)
  | .float32, v => leBytes 4 (v.extractLsb' 0 32)
  | .int64, v => leBytes 8 v
  | .uint64, v => leBytes 8 v
  | .float64, v => leBytes 8 v

/-- The value UNPACK makes of the bytes it read: le_word_W, widened (R149 to R155). -/
def Kind.unpack : Kind → List Byte → DWord
  | .int32, bs => (leWord 32 bs).signExtend 64
  | .uint32, bs => (leWord 32 bs).setWidth 64
  | .float32, bs => (leWord 32 bs).setWidth 64
  | .int64, bs => leWord 64 bs
  | .uint64, bs => leWord 64 bs
  | .float64, bs => leWord 64 bs

end Sys2Proof.Machine
end

