-- ==== Sys2Proof/Machine/HostPort.lean ====
section
/-! DEFINITION. The host's actions on registers and buffers (R50), and their refusals (R52). -/

namespace Sys2Proof.Machine

/-- The host writes VAL, OFF, BEGIN, END, or IBUF_LEN = n with n <= IBUF_MAX (R50, R52). A value is taken modulo the
register's width (log entry 9). -/
def hostWrite (r : OpReg) (v : Int) (s : State) : Host.Outcome State Fault Refusal :=
  match r with
  | .val => .next { s with val := .holding (BitVec.ofInt 64 v) }
  | .off => .next { s with off := .holding (BitVec.ofInt 32 v) }
  | .beginReg => .next { s with beginReg := .holding (BitVec.ofInt 32 v) }
  | .endReg => .next { s with endReg := .holding (BitVec.ofInt 32 v) }
  | .ibufLen =>
    if 0 ≤ v ∧ v ≤ s.build.ibufMax.toNat then .next { s with ibufLen := .holding (BitVec.ofInt 32 v) }
    else .refused (.ibufLenAboveMax v)

/-- The host writes IBUF[i] = b, for i < IBUF_MAX (R50, R52). -/
def hostWriteIbuf (i b : Int) (s : State) : Host.Outcome State Fault Refusal :=
  if 0 ≤ i ∧ i < s.build.ibufMax.toNat then
    .next { s with ibuf := Mem.write s.ibuf i.toNat (BitVec.ofInt 8 b) }
  else .refused (.ibufIndexOutside i)

/-- `IBUF := [b0 ... bk]` (R90): the bytes from index 0, and IBUF_LEN; refused where a byte or the length does not fit
(R52). -/
def hostSetIbuf (bs : List Byte) (s : State) : Host.Outcome State Fault Refusal :=
  if bs.length ≤ s.build.ibufMax.toNat then
    .next { s with
      ibuf := Mem.writeList s.ibuf 0 bs
      ibufLen := .holding (BitVec.ofNat 32 bs.length) }
  else .refused (.ibufIndexOutside s.build.ibufMax.toNat)

/-- The host reads RES, NOFF or OLEN, which holds `v`. A read of the ⊥ a command wrote there (R44) is a model fault (R46, R91;
log entry 7). Every command writes these registers together with STATUS (R44), so while STATUS is unwritten nothing has written
them either, and the read goes on with the value log entry 1 names. -/
def readResult {w : Nat} (r : HostReg) (v : Option (BitVec w)) (s : State) : Host.Outcome Nat Fault Refusal :=
  match v with
  | some x => .next x.toNat
  | none => if s.status.written then .fault (.unwritten (.result r)) else .next (resetBits w).toNat

/-- The host reads OLEN (R50). -/
def hostReadOlen (s : State) : Host.Outcome Nat Fault Refusal := readResult .olen s.olen s

/-- The host reads OBUF[i], for OLEN not ⊥ and i < OLEN (R50). DEDUCED: an index at or past OLEN is refused by R52, though
the byte there holds ⊥ and R46 would fault; where a command left OLEN itself ⊥ the fault names OLEN (log entry 7). -/
def hostReadObuf (i : Int) (s : State) : Host.Outcome Byte Fault Refusal :=
  andThen (hostReadOlen s) fun n =>
    if 0 ≤ i ∧ i < n then readByte .obuf i.toNat s else .refused (.obufIndexOutside i)

/-- The host reads OBUF[0..OLEN) (R41, R50). -/
def hostReadOutput (s : State) : Host.Outcome (List Byte) Fault Refusal :=
  andThen (hostReadOlen s) fun n => readBytes .obuf s 0 n

/-- `IBUF := OBUF` (R90): OBUF[0..OLEN) to IBUF, and IBUF_LEN := OLEN (R206). -/
def hostCopyObuf (s : State) : Host.Outcome State Fault Refusal :=
  andThen (hostReadOutput s) fun bs => hostSetIbuf bs s

/-- The host reads a register (R50; STATUS before the first command: log entry 1; CMD by R31, the last word written: log entries
1 and 8). No read changes the state (R71). -/
def hostRead (r : HostReg) (s : State) : Host.Outcome Value Fault Refusal :=
  match r with
  | .status => .next (.int s.status.bits.toNat)
  | .res => andThen (readResult .res s.res s) fun n => .next (.int n)
  | .noff => andThen (readResult .noff s.noff s) fun n => .next (.int n)
  | .olen => andThen (hostReadOlen s) fun n => .next (.int n)
  | .obuf => andThen (hostReadOutput s) fun bs => .next (.bytes bs)
  | .cap => .next (.int s.build.cap.toNat)
  | .cmd => .next (.int s.cmd.bits.toNat)

end Sys2Proof.Machine
end

