-- ==== Sys2Proof/WellFormed.lean ====
section
/-! DEFINITION. The fields of a command word (R81) and the checks R84 and R86 make on them. -/

namespace Sys2Proof

/-- A command word taken apart (R81): OPC in bits 7:0, KIND in 15:8, RSV in 31:16. -/
structure Command where
  opc  : Byte
  kind : Byte
  rsv  : BitVec 16
  deriving DecidableEq, Repr

namespace Command

/-- OPC is PACK or UNPACK, the two opcodes that take a KIND (R82). -/
def takesKind (c : Command) : Bool := c.opc == 0x20#8 || c.opc == 0x21#8

/-- OPC is a row of R82's opcode map. -/
def opcKnown (c : Command) : Bool :=
  (0x01#8 ≤ c.opc && c.opc ≤ 0x06#8) || (0x10#8 ≤ c.opc && c.opc ≤ 0x13#8) ||
    c.takesKind || (0x30#8 ≤ c.opc && c.opc ≤ 0x34#8)

/-- RSV is zero (R84). -/
def rsvZero (c : Command) : Bool := c.rsv == 0#16

/-- KIND is zero wherever the opcode takes none (R84). -/
def kindZero (c : Command) : Bool := c.takesKind || c.kind == 0#8

/-- Legal(w) of R84. -/
def legal (c : Command) : Bool := c.opcKnown && c.rsvZero && c.kindZero

/-- KIND is one of R83's six wherever the opcode takes one (R86). -/
def kindSupported (c : Command) : Bool := !c.takesKind || c.kind ≤ 0x05#8

/-- The words that are commands: legal, with a supported kind (R84, R86). -/
def wellFormed (c : Command) : Bool := c.legal && c.kindSupported

end Command

end Sys2Proof
end

