-- ==== Sys2Proof/Decode.lean ====
section
/-! DEFINITION. Decoding and encoding command words (30_encoding.md). Total on every 32-bit word; the two ways a
word is no command are told apart by name (R85, R86). -/

namespace Sys2Proof

/-- What a command word is: a command of R82 and R83, an illegal word (R85), or a PACK or UNPACK of an
unsupported kind (R86). -/
inductive Decoded where
  | instr (i : Instr)
  | illegalCommand
  | unsupportedKind
  deriving DecidableEq, Repr

/-- The fields of a word (R81). -/
def Command.ofWord (w : Word) : Command :=
  { opc := w.extractLsb' 0 8, kind := w.extractLsb' 8 8, rsv := w.extractLsb' 16 16 }

/-- The word of the fields (R81). -/
def Command.toWord (c : Command) : Word := c.rsv ++ c.kind ++ c.opc

/-- PACK's kinds (R83). -/
def packOfKind (k : Byte) : Decoded :=
  match k.toNat with
  | 0 => .instr .packInt32
  | 1 => .instr .packUint32
  | 2 => .instr .packFloat32
  | 3 => .instr .packInt64
  | 4 => .instr .packUint64
  | 5 => .instr .packFloat64
  | _ => .unsupportedKind

/-- UNPACK's kinds (R83). -/
def unpackOfKind (k : Byte) : Decoded :=
  match k.toNat with
  | 0 => .instr .unpackInt32
  | 1 => .instr .unpackUint32
  | 2 => .instr .unpackFloat32
  | 3 => .instr .unpackInt64
  | 4 => .instr .unpackUint64
  | 5 => .instr .unpackFloat64
  | _ => .unsupportedKind

/-- An opcode that takes no KIND: any other KIND than zero is illegal (R84). -/
def Command.plain (c : Command) (i : Instr) : Decoded :=
  if c.kind = 0#8 then .instr i else .illegalCommand

/-- The opcode map (R82). RSV must be zero (R84), and every other opcode is reserved (R85). -/
def Command.decode (c : Command) : Decoded :=
  if c.rsv = 0#16 then
    match c.opc.toNat with
    | 0x01 => c.plain .encVarint
    | 0x02 => c.plain .encSvarint
    | 0x03 => c.plain .decLen
    | 0x04 => c.plain .decVarint
    | 0x05 => c.plain .decSvarint
    | 0x06 => c.plain .rawToken
    | 0x10 => c.plain .zzEnc32
    | 0x11 => c.plain .zzDec32
    | 0x12 => c.plain .zzEnc64
    | 0x13 => c.plain .zzDec64
    | 0x20 => packOfKind c.kind
    | 0x21 => unpackOfKind c.kind
    | 0x30 => c.plain .sinkAppend
    | 0x31 => c.plain .sinkLen
    | 0x32 => c.plain .sinkBytes
    | 0x33 => c.plain .sinkSlice
    | 0x34 => c.plain .sinkClear
    | _ => .illegalCommand
  else .illegalCommand

/-- The meaning of a word: legality first, then the kind (R87, R187). -/
def decode (w : Word) : Decoded := (Command.ofWord w).decode

/-- The fields of each command (R82, R83). -/
def Instr.command : Instr → Command
  | .encVarint     => ⟨0x01#8, 0x00#8, 0#16⟩
  | .encSvarint    => ⟨0x02#8, 0x00#8, 0#16⟩
  | .decLen        => ⟨0x03#8, 0x00#8, 0#16⟩
  | .decVarint     => ⟨0x04#8, 0x00#8, 0#16⟩
  | .decSvarint    => ⟨0x05#8, 0x00#8, 0#16⟩
  | .rawToken      => ⟨0x06#8, 0x00#8, 0#16⟩
  | .zzEnc32       => ⟨0x10#8, 0x00#8, 0#16⟩
  | .zzDec32       => ⟨0x11#8, 0x00#8, 0#16⟩
  | .zzEnc64       => ⟨0x12#8, 0x00#8, 0#16⟩
  | .zzDec64       => ⟨0x13#8, 0x00#8, 0#16⟩
  | .packInt32     => ⟨0x20#8, 0x00#8, 0#16⟩
  | .packUint32    => ⟨0x20#8, 0x01#8, 0#16⟩
  | .packFloat32   => ⟨0x20#8, 0x02#8, 0#16⟩
  | .packInt64     => ⟨0x20#8, 0x03#8, 0#16⟩
  | .packUint64    => ⟨0x20#8, 0x04#8, 0#16⟩
  | .packFloat64   => ⟨0x20#8, 0x05#8, 0#16⟩
  | .unpackInt32   => ⟨0x21#8, 0x00#8, 0#16⟩
  | .unpackUint32  => ⟨0x21#8, 0x01#8, 0#16⟩
  | .unpackFloat32 => ⟨0x21#8, 0x02#8, 0#16⟩
  | .unpackInt64   => ⟨0x21#8, 0x03#8, 0#16⟩
  | .unpackUint64  => ⟨0x21#8, 0x04#8, 0#16⟩
  | .unpackFloat64 => ⟨0x21#8, 0x05#8, 0#16⟩
  | .sinkAppend    => ⟨0x30#8, 0x00#8, 0#16⟩
  | .sinkLen       => ⟨0x31#8, 0x00#8, 0#16⟩
  | .sinkBytes     => ⟨0x32#8, 0x00#8, 0#16⟩
  | .sinkSlice     => ⟨0x33#8, 0x00#8, 0#16⟩
  | .sinkClear     => ⟨0x34#8, 0x00#8, 0#16⟩

/-- The command word of a command (R80 to R83). -/
def encode (i : Instr) : Word := i.command.toWord

/-- The host's word of an opcode-table row: `nbits` bits of `w`, bit 0 the least significant, zeros above.
A command is one 32-bit word (R80), so these are the word itself. -/
def tableWord (nbits w : Nat) : Word := BitVec.ofNat 32 (w % 2 ^ nbits)

/-- The instruction the decoder reads from an opcode-table row's bits. -/
def decodeTableWord (nbits w : Nat) : Option Instr :=
  match decode (tableWord nbits w) with
  | .instr i => some i
  | .illegalCommand => none
  | .unsupportedKind => none

end Sys2Proof
end

