-- ==== Sys2Proof/Machine/FixedWidth.lean ====
section
/-! DEFINITION. The fixed-width commands (42_fixed_width.md, R142 to R155). Floats pass as bit patterns (R157). -/

namespace Sys2Proof.Machine

/-- PACK, common procedure (R142). -/
def packBody (k : Kind) (s : State) : Host.Outcome State Fault Refusal :=
  andThen (readVal s) fun v => .next (complete { bytes := some (k.pack v) } s)

/-- UNPACK, common procedure (R149): a short remainder is zero-padded, never an error. -/
def unpackBody (k : Kind) (s : State) : Host.Outcome State Fault Refusal :=
  andThen (readOff s) fun off => andThen (readIbufLen s) fun len =>
    andThen (readBytes .ibuf s off.toNat (min k.width (remaining off len))) fun bs =>
      .next (complete { res := some (k.unpack bs) } s)

/-- PACK.int32 (R143). -/
def execPackInt32 (s : State) : Host.Outcome State Fault Refusal := packBody .int32 s

/-- PACK.uint32 (R144). -/
def execPackUint32 (s : State) : Host.Outcome State Fault Refusal := packBody .uint32 s

/-- PACK.float32 (R145). -/
def execPackFloat32 (s : State) : Host.Outcome State Fault Refusal := packBody .float32 s

/-- PACK.int64 (R146). -/
def execPackInt64 (s : State) : Host.Outcome State Fault Refusal := packBody .int64 s

/-- PACK.uint64 (R147). -/
def execPackUint64 (s : State) : Host.Outcome State Fault Refusal := packBody .uint64 s

/-- PACK.float64 (R148). -/
def execPackFloat64 (s : State) : Host.Outcome State Fault Refusal := packBody .float64 s

/-- UNPACK.int32 (R150). -/
def execUnpackInt32 (s : State) : Host.Outcome State Fault Refusal := unpackBody .int32 s

/-- UNPACK.uint32 (R151). -/
def execUnpackUint32 (s : State) : Host.Outcome State Fault Refusal := unpackBody .uint32 s

/-- UNPACK.float32 (R152). -/
def execUnpackFloat32 (s : State) : Host.Outcome State Fault Refusal := unpackBody .float32 s

/-- UNPACK.int64 (R153). -/
def execUnpackInt64 (s : State) : Host.Outcome State Fault Refusal := unpackBody .int64 s

/-- UNPACK.uint64 (R154). -/
def execUnpackUint64 (s : State) : Host.Outcome State Fault Refusal := unpackBody .uint64 s

/-- UNPACK.float64 (R155). -/
def execUnpackFloat64 (s : State) : Host.Outcome State Fault Refusal := unpackBody .float64 s

end Sys2Proof.Machine
end

