-- ==== Sys2Proof/Machine/Sink.lean ====
section
/-! DEFINITION. The byte sink commands (43_byte_sink.md, R161 to R165). -/

namespace Sys2Proof.Machine

/-- SINK_APPEND (R161): the sum is compared without wrap, and a failed append reads no byte. -/
def execSinkAppend (s : State) : Host.Outcome State Fault Refusal :=
  andThen (readIbufLen s) fun n =>
    if s.build.cap.toNat < s.len.toNat + n.toNat then .next (raise .capacityExceeded s)
    else andThen (readBytes .ibuf s 0 n.toNat) fun bs =>
      .next (complete {} (setLen (s.len + n) (writeSink s.len.toNat bs s)))

/-- SINK_LEN (R162). -/
def execSinkLen (s : State) : Host.Outcome State Fault Refusal :=
  .next (complete { res := some (s.len.setWidth 64) } s)

/-- SINK_BYTES (R163). -/
def execSinkBytes (s : State) : Host.Outcome State Fault Refusal :=
  andThen (readBytes .sink s 0 s.len.toNat) fun bs => .next (complete { bytes := some bs } s)

/-- SINK_SLICE (R164): 1-based inclusive bounds. -/
def execSinkSlice (s : State) : Host.Outcome State Fault Refusal :=
  andThen (readBegin s) fun b => andThen (readEnd s) fun e =>
    if b.toNat < 1 ∨ e.toNat < b.toNat ∨ s.len.toNat < e.toNat then .next (raise .outOfRange s)
    else andThen (readBytes .sink s (b.toNat - 1) (e.toNat - b.toNat + 1)) fun bs =>
      .next (complete { bytes := some bs } s)

/-- SINK_CLEAR (R165): the old bytes stay in place, stale (R45). -/
def execSinkClear (s : State) : Host.Outcome State Fault Refusal :=
  .next (complete {} (setLen 0#32 s))

end Sys2Proof.Machine
end

