-- ==== Sys2Proof/Machine/Varint.lean ====
section
/-! DEFINITION. The varint commands (40_varint.md, R104 to R109). -/

namespace Sys2Proof.Machine

/-- ENC_VARINT (R104). -/
def execEncVarint (s : State) : Host.Outcome State Fault Refusal :=
  andThen (readVal s) fun v => .next (complete { bytes := some (varintBytes v) } s)

/-- ENC_SVARINT (R105): the pattern of the signed value, as an unsigned one. -/
def execEncSvarint (s : State) : Host.Outcome State Fault Refusal :=
  andThen (readVal s) fun v => .next (complete { bytes := some (varintBytes (BitVec.ofInt 64 v.toInt)) } s)

/-- The scan the four decode commands begin with, and MalformedVarint where it fails (R102, R115). -/
def scanBody (s : State) (found : Word → Nat → Host.Outcome State Fault Refusal) :
    Host.Outcome State Fault Refusal :=
  andThen (readOff s) fun off => andThen (readIbufLen s) fun len => andThen (scanLen s off len) fun r =>
    match r with
    | none => .next (raise .malformedVarint s)
    | some n => found off n

/-- DEC_LEN (R106). -/
def execDecLen (s : State) : Host.Outcome State Fault Refusal :=
  scanBody s fun _ n => .next (complete { res := some (BitVec.ofNat 64 n) } s)

/-- The value and the offset past it, shared by R107 and R108. -/
def decodeFound (s : State) (off : Word) (n : Nat) : Host.Outcome State Fault Refusal :=
  andThen (readBytes .ibuf s off.toNat n) fun bs =>
    .next (complete { res := some (varintValue bs), noff := some (off + BitVec.ofNat 32 n) } s)

/-- DEC_VARINT (R107). -/
def execDecVarint (s : State) : Host.Outcome State Fault Refusal := scanBody s (decodeFound s)

/-- DEC_SVARINT (R108): the same pattern, which the host reads as signed. -/
def execDecSvarint (s : State) : Host.Outcome State Fault Refusal := scanBody s (decodeFound s)

/-- RAW_TOKEN (R109). -/
def execRawToken (s : State) : Host.Outcome State Fault Refusal :=
  scanBody s fun off n => andThen (readBytes .ibuf s off.toNat n) fun bs =>
    .next (complete { noff := some (off + BitVec.ofNat 32 n), bytes := some bs } s)

end Sys2Proof.Machine
end

