-- ==== Sys2Proof/Machine/Zigzag.lean ====
section
/-! DEFINITION. The zigzag commands (41_zigzag.md, R130 to R133). -/

namespace Sys2Proof.Machine

/-- `(n << 1) ^ (n >>s (N-1))` on N bits (R130, R132). -/
def zigzag {w : Nat} (n : BitVec w) : BitVec w := (n <<< 1) ^^^ n.sshiftRight (w - 1)

/-- `(z >>u 1) ^ -(z & 1)` on N bits (R131, R133). -/
def unzigzag {w : Nat} (z : BitVec w) : BitVec w := (z >>> 1) ^^^ -(z &&& 1#w)

/-- ZZ_ENC32 (R130): the u32 result is zero-extended. -/
def execZzEnc32 (s : State) : Host.Outcome State Fault Refusal :=
  andThen (readVal32 s) fun n => .next (complete { res := some ((zigzag n).setWidth 64) } s)

/-- ZZ_DEC32 (R131): the i32 result is sign-extended. -/
def execZzDec32 (s : State) : Host.Outcome State Fault Refusal :=
  andThen (readVal32 s) fun z => .next (complete { res := some ((unzigzag z).signExtend 64) } s)

/-- ZZ_ENC64 (R132). -/
def execZzEnc64 (s : State) : Host.Outcome State Fault Refusal :=
  andThen (readVal s) fun n => .next (complete { res := some (zigzag n) } s)

/-- ZZ_DEC64 (R133). -/
def execZzDec64 (s : State) : Host.Outcome State Fault Refusal :=
  andThen (readVal s) fun z => .next (complete { res := some (unzigzag z) } s)

end Sys2Proof.Machine
end

