-- ==== Sys2Proof/Machine/Dispatch.lean ====
section
/-! DEFINITION. One arm per command (R87's dispatch), each a direct call of its meaning. -/

namespace Sys2Proof.Machine

def exec (i : Instr) (s : State) : Host.Outcome State Fault Refusal :=
  match i with
  -- varint (R104 to R109)
  | .encVarint => Sys2Proof.Machine.execEncVarint s
  | .encSvarint => Sys2Proof.Machine.execEncSvarint s
  | .decLen => Sys2Proof.Machine.execDecLen s
  | .decVarint => Sys2Proof.Machine.execDecVarint s
  | .decSvarint => Sys2Proof.Machine.execDecSvarint s
  | .rawToken => Sys2Proof.Machine.execRawToken s
  -- zigzag (R130 to R133)
  | .zzEnc32 => Sys2Proof.Machine.execZzEnc32 s
  | .zzDec32 => Sys2Proof.Machine.execZzDec32 s
  | .zzEnc64 => Sys2Proof.Machine.execZzEnc64 s
  | .zzDec64 => Sys2Proof.Machine.execZzDec64 s
  -- fixed width (R142 to R155)
  | .packInt32 => Sys2Proof.Machine.execPackInt32 s
  | .packUint32 => Sys2Proof.Machine.execPackUint32 s
  | .packFloat32 => Sys2Proof.Machine.execPackFloat32 s
  | .packInt64 => Sys2Proof.Machine.execPackInt64 s
  | .packUint64 => Sys2Proof.Machine.execPackUint64 s
  | .packFloat64 => Sys2Proof.Machine.execPackFloat64 s
  | .unpackInt32 => Sys2Proof.Machine.execUnpackInt32 s
  | .unpackUint32 => Sys2Proof.Machine.execUnpackUint32 s
  | .unpackFloat32 => Sys2Proof.Machine.execUnpackFloat32 s
  | .unpackInt64 => Sys2Proof.Machine.execUnpackInt64 s
  | .unpackUint64 => Sys2Proof.Machine.execUnpackUint64 s
  | .unpackFloat64 => Sys2Proof.Machine.execUnpackFloat64 s
  -- byte sink (R161 to R165)
  | .sinkAppend => Sys2Proof.Machine.execSinkAppend s
  | .sinkLen => Sys2Proof.Machine.execSinkLen s
  | .sinkBytes => Sys2Proof.Machine.execSinkBytes s
  | .sinkSlice => Sys2Proof.Machine.execSinkSlice s
  | .sinkClear => Sys2Proof.Machine.execSinkClear s

end Sys2Proof.Machine
end

