-- ==== Sys2Proof/Machine/Issue.lean ====
section
/-! DEFINITION. Issuing a command word (R80, R87): decode it, and run its meaning or report the error of R85 or R86. -/

namespace Sys2Proof.Machine

/-- A host write of CMD (R31, R87): the whole command runs before the host's next action (R51). -/
def issue (w : Word) (s : State) : Host.Outcome State Fault Refusal :=
  match decode w with
  | .instr i => exec i (setCmd w s)
  | .illegalCommand => .next (raise .illegalCommand (setCmd w s))
  | .unsupportedKind => .next (raise .unsupportedKind (setCmd w s))

end Sys2Proof.Machine
end

