-- ==== Sys2Proof/Machine/HostRun.lean ====
section
/-! DEFINITION. Running the host program (R90): expressions, conditions, lines, and the pseudo-instructions of R91. -/

namespace Sys2Proof.Machine

/-- The value of a host variable, if it was ever set. -/
def lookupVar (vars : List (Nat × Value)) (t : Nat) : Option Value :=
  match vars with
  | [] => none
  | (k, v) :: rest => if k = t then some v else lookupVar rest t

/-- Set a host variable. -/
def updateVar (vars : List (Nat × Value)) (t : Nat) (v : Value) : List (Nat × Value) :=
  match vars with
  | [] => [(t, v)]
  | (k, x) :: rest => if k = t then (t, v) :: rest else (k, x) :: updateVar rest t v

/-- `t := ...` in the host (R90): it touches no block state. -/
def setVar (t : Nat) (v : Value) (s : State) : State :=
  { s with host := { s.host with vars := updateVar s.host.vars t v } }

/-- A value where the notation has a number (R12). -/
def Value.number (v : Value) : Host.Outcome Int Fault Refusal :=
  match v with
  | .int n => .next n
  | .bytes _ => .refused .wrongSort

/-- A value where the notation has a byte list (R15). -/
def Value.byteList (v : Value) : Host.Outcome (List Byte) Fault Refusal :=
  match v with
  | .int _ => .refused .wrongSort
  | .bytes bs => .next bs

/-- The conversions of R13. DESIGN CHOICE: an integer outside a conversion's stated domain (bits64 outside [-2^63, 2^64), s32,
u32 or sext_64 of a value wider than 32 bits, and so on) is taken modulo the conversion's width (log entry 18). zext_64 cuts
nothing below bit 64: R13 gives its operand no width. -/
def Conv.apply (c : Conv) (x : Int) : Int :=
  match c with
  | .s32 => (BitVec.ofInt 32 x).toInt
  | .s64 => (BitVec.ofInt 64 x).toInt
  | .u32 => (BitVec.ofInt 32 x).toNat
  | .u64 => (BitVec.ofInt 64 x).toNat
  | .bits32 => (BitVec.ofInt 32 x).toNat
  | .bits64 => (BitVec.ofInt 64 x).toNat
  | .zext64 => (BitVec.ofInt 64 x).toNat
  | .sext64 => ((BitVec.ofInt 32 x).signExtend 64).toNat

/-- The operators of R14 on `w`-bit values; a shift's count is its right operand. DESIGN CHOICE: an operand wider than `w` bits
is taken modulo 2^w, and a negative count shifts by 0 (log entry 18). -/
def BitOp.apply (o : BitOp) (w : Nat) (x y : Int) : Int :=
  match o with
  | .xor => (BitVec.ofInt w x ^^^ BitVec.ofInt w y).toNat
  | .and => (BitVec.ofInt w x &&& BitVec.ofInt w y).toNat
  | .or => (BitVec.ofInt w x ||| BitVec.ofInt w y).toNat
  | .shl => (BitVec.ofInt w x <<< y.toNat).toNat
  | .ushr => (BitVec.ofInt w x >>> y.toNat).toNat
  | .sshr => ((BitVec.ofInt w x).sshiftRight y.toNat).toNat

/-- `L[i]` (R15), a byte as a number; refused where the list has no such element (log entry 10). -/
def itemOf (bs : List Byte) (i : Int) : Host.Outcome Value Fault Refusal :=
  if 0 ≤ i then
    match bs[i.toNat]? with
    | some b => .next (.int b.toNat)
    | none => .refused (.noSuchElement i)
  else .refused (.noSuchElement i)

/-- `L[i..j)` (R15): empty when j <= i, and refused where it names an element the list lacks (log entry 10). -/
def sublistOf (bs : List Byte) (i j : Int) : Host.Outcome Value Fault Refusal :=
  if j ≤ i then .next (.bytes [])
  else if 0 ≤ i then
    if j ≤ bs.length then .next (.bytes ((bs.drop i.toNat).take (j - i).toNat)) else .refused (.noSuchElement (j - 1))
  else .refused (.noSuchElement i)

/-- Go on with a number. -/
def withNumber (x : Host.Outcome Value Fault Refusal) (f : Int → Host.Outcome Value Fault Refusal) :
    Host.Outcome Value Fault Refusal :=
  andThen x fun v => andThen v.number f

/-- Go on with two numbers, the left one first. -/
def withNumbers (x y : Host.Outcome Value Fault Refusal) (f : Int → Int → Value) : Host.Outcome Value Fault Refusal :=
  withNumber x fun a => withNumber y fun b => .next (f a b)

/-- Go on with a byte list. -/
def withBytes (x : Host.Outcome Value Fault Refusal) (f : List Byte → Host.Outcome Value Fault Refusal) :
    Host.Outcome Value Fault Refusal :=
  andThen x fun v => andThen v.byteList f

/-- `v[hi:lo]` (R12). DESIGN CHOICE: a negative integer, to which R12 gives no bits unless it has a width, has the bits of its
two's complement without end, so the field is its floor quotient by 2^lo, modulo 2^(hi - lo + 1) (log entry 18). A field with
hi below lo is 0 (log entry 16), and one with a negative lo is refused: bits are numbered from 0 (log entry 10). -/
def sliceOf (x hi lo : Int) : Host.Outcome Value Fault Refusal :=
  if 0 ≤ lo then .next (.int (x / 2 ^ lo.toNat % 2 ^ (hi + 1 - lo).toNat)) else .refused (.noSuchElement lo)

/-- The value of a host expression (R12 to R15; log entries 16 and 18). -/
def evalExpr (s : State) : Expr → Host.Outcome Value Fault Refusal
  | .const n => .next (.int n)
  | .var t =>
    match lookupVar s.host.vars t with
    | some v => .next v
    | none => .refused (.noSuchVariable t)
  | .reg r => hostRead r s
  | .obufAt i => withNumber (evalExpr s i) fun k => andThen (hostReadObuf k s) fun b => .next (.int b.toNat)
  | .add a b => withNumbers (evalExpr s a) (evalExpr s b) fun x y => .int (x + y)
  | .sub a b => withNumbers (evalExpr s a) (evalExpr s b) fun x y => .int (x - y)
  | .mul a b => withNumbers (evalExpr s a) (evalExpr s b) fun x y => .int (x * y)
  | .neg a => withNumber (evalExpr s a) fun x => .next (.int (-x))
  | .conv c a => withNumber (evalExpr s a) fun x => .next (.int (c.apply x))
  | .slice a hi lo => withNumber (evalExpr s a) fun x => withNumber (evalExpr s hi) fun h =>
      withNumber (evalExpr s lo) fun l => sliceOf x h l
  | .bit o w a b => withNumbers (evalExpr s a) (evalExpr s b) fun x y => .int (o.apply w x y)
  | .compl w a => withNumber (evalExpr s a) fun x => .next (.int (~~~(BitVec.ofInt w x)).toNat)
  | .negBits w a => withNumber (evalExpr s a) fun x => .next (.int (-(BitVec.ofInt w x)).toNat)
  | .bytes bs => .next (.bytes bs)
  | .single b => withNumber (evalExpr s b) fun x => .next (.bytes [BitVec.ofInt 8 x])
  | .append a b => withBytes (evalExpr s a) fun x => withBytes (evalExpr s b) fun y => .next (.bytes (x ++ y))
  | .len l => withBytes (evalExpr s l) fun x => .next (.int x.length)
  | .item l i => withBytes (evalExpr s l) fun x => withNumber (evalExpr s i) fun k => itemOf x k
  | .sublist l i j => withBytes (evalExpr s l) fun x => withNumber (evalExpr s i) fun k =>
      withNumber (evalExpr s j) fun m => sublistOf x k m

/-- The value of an expression that stands where a number does. -/
def evalNumber (s : State) (e : Expr) : Host.Outcome Int Fault Refusal := andThen (evalExpr s e) Value.number

/-- The value of an expression that stands where a byte list does. -/
def evalBytes (s : State) (e : Expr) : Host.Outcome (List Byte) Fault Refusal := andThen (evalExpr s e) Value.byteList

/-- A comparison of two integers. -/
def Cmp.onInts (o : Cmp) (x y : Int) : Bool :=
  match o with
  | .eq => x == y
  | .ne => x != y
  | .lt => decide (x < y)
  | .le => decide (x ≤ y)

/-- A comparison (R90): of two numbers, or for equality of two byte lists (log entry 16). -/
def Cmp.apply (o : Cmp) (x y : Value) : Host.Outcome Bool Fault Refusal :=
  match x, y with
  | .int a, .int b => .next (o.onInts a b)
  | .bytes a, .bytes b =>
    match o with
    | .eq => .next (a == b)
    | .ne => .next (a != b)
    | .lt => .refused .wrongSort
    | .le => .refused .wrongSort
  | .int _, .bytes _ => .refused .wrongSort
  | .bytes _, .int _ => .refused .wrongSort

/-- The value of a branch condition (R90). -/
def evalCond (s : State) : Cond → Host.Outcome Bool Fault Refusal
  | .cmp o a b => andThen (evalExpr s a) fun x => andThen (evalExpr s b) fun y => o.apply x y
  | .not a => andThen (evalCond s a) fun x => .next (!x)
  | .and a b => andThen (evalCond s a) fun x => andThen (evalCond s b) fun y => .next (x && y)
  | .or a b => andThen (evalCond s a) fun x => andThen (evalCond s b) fun y => .next (x || y)

/-- The host goes on to its next line. -/
def nextLine (s : State) : State := { s with host := { s.host with pos := s.host.pos + 1 } }

/-- The line number of a label, the first where a program repeats it (log entry 16). -/
def findLabel (ls : List Line) (l : Nat) : Option Nat :=
  match ls with
  | [] => none
  | x :: rest => if x = .label l then some 0 else (findLabel rest l).map (· + 1)

/-- `goto label` (R90). -/
def jump (l : Nat) (s : State) : Host.Outcome State Fault Refusal :=
  match findLabel s.host.program l with
  | some k => .next { s with host := { s.host with pos := k } }
  | none => .refused (.noSuchLabel l)

/-- One line of a host program (R90). A line that touches the block is one or more of R50's actions. -/
def runLine (x : Line) (s : State) : Host.Outcome State Fault Refusal :=
  match x with
  | .word w => issue w (nextLine s)
  | .command i => issue (encode i) (nextLine s)
  | .write r e => andThen (evalNumber s e) fun v => hostWrite r v (nextLine s)
  | .writeIbuf i b => andThen (evalNumber s i) fun k => andThen (evalNumber s b) fun v => hostWriteIbuf k v (nextLine s)
  | .setIbuf l => andThen (evalBytes s l) fun bs => hostSetIbuf bs (nextLine s)
  | .copyObuf => hostCopyObuf (nextLine s)
  | .read t r => andThen (hostRead r s) fun v => .next (setVar t v (nextLine s))
  | .readObuf t i => andThen (evalNumber s i) fun k => andThen (hostReadObuf k s) fun b =>
      .next (setVar t (.int b.toNat) (nextLine s))
  | .assign t e => andThen (evalExpr s e) fun v => .next (setVar t v (nextLine s))
  | .label _ => .next (nextLine s)
  | .branch c l => andThen (evalCond s c) fun b => if b then jump l s else .next (nextLine s)
  | .goto l => jump l s
  | .halt => .next s

/-- Lines run one after another, as in a pseudo-instruction's expansion (R91), which holds no jump. -/
def runLines (ls : List Line) (s : State) : Host.Outcome State Fault Refusal :=
  match ls with
  | [] => .next s
  | x :: rest => andThen (runLine x s) fun t => runLines rest t

/-- The line the host runs next; none when it has no next line (R211). -/
def currentLine (s : State) : Option Line := s.host.program[s.host.pos]?

/-- The expansions of R91. -/
def Pseudo.expand : Pseudo → List Line
  | .encInt32 n => [.write .val (.conv .sext64 (.conv .bits32 n)), .command .encSvarint]
  | .encInt64 n => [.write .val (.conv .bits64 n), .command .encSvarint]
  | .encSint32 n t => [.write .val (.conv .zext64 (.conv .bits32 n)), .command .zzEnc32, .read t .res,
      .write .val (.var t), .command .encVarint]
  | .encSint64 n t => [.write .val (.conv .bits64 n), .command .zzEnc64, .read t .res,
      .write .val (.var t), .command .encVarint]
  | .decSint32 t u => [.command .decVarint, .read u .noff, .read t .res, .write .val (.var t), .command .zzDec32]
  | .decSint64 t u => [.command .decVarint, .read u .noff, .read t .res, .write .val (.var t), .command .zzDec64]
  | .appendObuf => [.copyObuf, .command .sinkAppend]
  | .sliceAll t => [.command .sinkLen, .read t .res, .write .beginReg (.const 1), .write .endReg (.var t),
      .command .sinkSlice]

end Sys2Proof.Machine
end

