-- ==== Sys2Proof/Machine/Step.lean ====
section
/-! DEFINITION. One step is one line of the host program (R90, R51). A host with no next line, or at `halt`, leaves
everything as it is (R11, R198, R211). -/

namespace Sys2Proof.Machine

def step (s : State) : Host.Outcome State Fault Refusal :=
  match currentLine s with
  | none => .next s
  | some x => runLine x s

/-- The instruction of an opcode-table row as the host's next line: a program is loaded from outside (log entry 5). -/
def State.withFetchWord (s : State) (nbits w : Nat) : State :=
  { s with host := { s.host with program := [.word (tableWord nbits w)], pos := 0 } }

end Sys2Proof.Machine
end

