-- ==== Sys2Proof/Machine/HostWellFormed.lean ====
section
/-! DEFINITION. What makes a host program well formed in the syntax of R90: registers are read by `t := REG` and in branch
conditions only, every jump has its label, and no label is repeated. -/

namespace Sys2Proof.Machine

/-- The expression reads no register (R90: `t := expr` and `REG := expr` use constants and host variables). -/
def Expr.regFree : Expr → Bool
  | .const _ => true
  | .var _ => true
  | .reg _ => false
  | .obufAt _ => false
  | .add a b => a.regFree && b.regFree
  | .sub a b => a.regFree && b.regFree
  | .mul a b => a.regFree && b.regFree
  | .neg a => a.regFree
  | .conv _ a => a.regFree
  | .slice a hi lo => a.regFree && hi.regFree && lo.regFree
  | .bit _ _ a b => a.regFree && b.regFree
  | .compl _ a => a.regFree
  | .negBits _ a => a.regFree
  | .bytes _ => true
  | .single b => b.regFree
  | .append a b => a.regFree && b.regFree
  | .len l => l.regFree
  | .item l i => l.regFree && i.regFree
  | .sublist l i j => l.regFree && i.regFree && j.regFree

/-- The line's expressions read no register. -/
def Line.regFree : Line → Bool
  | .word _ => true
  | .command _ => true
  | .write _ e => e.regFree
  | .writeIbuf i b => i.regFree && b.regFree
  | .setIbuf l => l.regFree
  | .copyObuf => true
  | .read _ _ => true
  | .readObuf _ i => i.regFree
  | .assign _ e => e.regFree
  | .label _ => true
  | .branch _ _ => true
  | .goto _ => true
  | .halt => true

/-- The label a line jumps to. -/
def Line.target : Line → Option Nat
  | .word _ => none
  | .command _ => none
  | .write _ _ => none
  | .writeIbuf _ _ => none
  | .setIbuf _ => none
  | .copyObuf => none
  | .read _ _ => none
  | .readObuf _ _ => none
  | .assign _ _ => none
  | .label _ => none
  | .branch _ l => some l
  | .goto l => some l
  | .halt => none

/-- Every jump has its label. -/
def jumpsResolve (ls : List Line) : Bool :=
  ls.all fun x => match x.target with
    | none => true
    | some l => ls.contains (.label l)

/-- The labels of a program. -/
def labelsOf (ls : List Line) : List Nat :=
  ls.filterMap fun x => match x with
    | .label l => some l
    | _ => none

/-- No label is repeated. -/
def labelsDistinct (ls : List Line) : Bool := decide (labelsOf ls).Nodup

/-- A well-formed host program (R90). -/
def programWellFormed (ls : List Line) : Bool := ls.all Line.regFree && jumpsResolve ls && labelsDistinct ls

end Sys2Proof.Machine
end

