-- ==== Sys2Proof/Machine/SubBlocks.lean ====
section
/-! DEFINITION. The sub-block each command belongs to (R3). -/

namespace Sys2Proof.Machine

/-- R3's table. -/
def subBlock : Instr → SubBlock
  | .encVarint => .varintEncoder
  | .encSvarint => .varintEncoder
  | .decLen => .varintDecoder
  | .decVarint => .varintDecoder
  | .decSvarint => .varintDecoder
  | .rawToken => .varintDecoder
  | .zzEnc32 => .zigzagEncoder32
  | .zzDec32 => .zigzagDecoder32
  | .zzEnc64 => .zigzagEncoder64
  | .zzDec64 => .zigzagDecoder64
  | .packInt32 => .fixedWidth32
  | .packUint32 => .fixedWidth32
  | .packFloat32 => .ieee754Passthrough
  | .packInt64 => .fixedWidth64
  | .packUint64 => .fixedWidth64
  | .packFloat64 => .ieee754Passthrough
  | .unpackInt32 => .fixedWidth32
  | .unpackUint32 => .fixedWidth32
  | .unpackFloat32 => .ieee754Passthrough
  | .unpackInt64 => .fixedWidth64
  | .unpackUint64 => .fixedWidth64
  | .unpackFloat64 => .ieee754Passthrough
  | .sinkAppend => .byteSink
  | .sinkLen => .byteSink
  | .sinkBytes => .byteSink
  | .sinkSlice => .byteSink
  | .sinkClear => .byteSink

end Sys2Proof.Machine
end

