-- ==== Sys2Proof/Safety.lean ====
section
/-! DEFINITION. The terms claims are stated in: register use (R48, R204), R46's model fault, what a command leaves alone,
how it ends, and the invariant of every reachable state. -/

namespace Sys2Proof.Safety

open Sys2Proof.Machine

/-- The operand registers a command reads: the R columns of R48. -/
def operandsOf : Instr → List OpReg
  | .encVarint => [.val]
  | .encSvarint => [.val]
  | .decLen => [.off, .ibufLen]
  | .decVarint => [.off, .ibufLen]
  | .decSvarint => [.off, .ibufLen]
  | .rawToken => [.off, .ibufLen]
  | .zzEnc32 => [.val]
  | .zzDec32 => [.val]
  | .zzEnc64 => [.val]
  | .zzDec64 => [.val]
  | .packInt32 => [.val]
  | .packUint32 => [.val]
  | .packFloat32 => [.val]
  | .packInt64 => [.val]
  | .packUint64 => [.val]
  | .packFloat64 => [.val]
  | .unpackInt32 => [.off, .ibufLen]
  | .unpackUint32 => [.off, .ibufLen]
  | .unpackFloat32 => [.off, .ibufLen]
  | .unpackInt64 => [.off, .ibufLen]
  | .unpackUint64 => [.off, .ibufLen]
  | .unpackFloat64 => [.off, .ibufLen]
  | .sinkAppend => [.ibufLen]
  | .sinkLen => []
  | .sinkBytes => []
  | .sinkSlice => [.beginReg, .endReg]
  | .sinkClear => []

/-- The result registers a command writes with a value on success: the W columns of R48. STATUS is always written. -/
def resultsOf : Instr → List HostReg
  | .encVarint => [.olen]
  | .encSvarint => [.olen]
  | .decLen => [.res]
  | .decVarint => [.res, .noff]
  | .decSvarint => [.res, .noff]
  | .rawToken => [.noff, .olen]
  | .zzEnc32 => [.res]
  | .zzDec32 => [.res]
  | .zzEnc64 => [.res]
  | .zzDec64 => [.res]
  | .packInt32 => [.olen]
  | .packUint32 => [.olen]
  | .packFloat32 => [.olen]
  | .packInt64 => [.olen]
  | .packUint64 => [.olen]
  | .packFloat64 => [.olen]
  | .unpackInt32 => [.res]
  | .unpackUint32 => [.res]
  | .unpackFloat32 => [.res]
  | .unpackInt64 => [.res]
  | .unpackUint64 => [.res]
  | .unpackFloat64 => [.res]
  | .sinkAppend => []
  | .sinkLen => [.res]
  | .sinkBytes => [.olen]
  | .sinkSlice => [.olen]
  | .sinkClear => []

/-- The host has written the register since reset, so it does not hold ⊥ (R46). -/
def isWritten (s : State) : OpReg → Bool
  | .val => s.val.written
  | .off => s.off.written
  | .beginReg => s.beginReg.written
  | .endReg => s.endReg.written
  | .ibufLen => s.ibufLen.written

/-- The first operand register a command reads that holds ⊥ (R46, R204). -/
def bottomOperand (i : Instr) (s : State) : Option OpReg := (operandsOf i).find? fun r => !isWritten s r

/-- R46's model fault for a command: `Unwritten` of an operand register, or the fault its byte reads raise. Where an operand
register holds ⊥ the machine itself goes on, on the value log entry 1 names; a run is fault-free in R46's sense when this
is `none` for each of its commands. -/
def modelFault (i : Instr) (s : State) : Option Fault :=
  match bottomOperand i s with
  | some r => some (.unwritten (.operand r))
  | none =>
    match exec i s with
    | .next _ => none
    | .fault e => some e
    | .refused _ => none

/-- Everything a command leaves alone: the build, CMD once issued, the operand registers, IBUF and the host (R36, R37,
R42). -/
structure CommandFrame (s t : State) : Prop where
  build : t.build = s.build
  cmd : t.cmd = s.cmd
  val : t.val = s.val
  off : t.off = s.off
  beginReg : t.beginReg = s.beginReg
  endReg : t.endReg = s.endReg
  ibufLen : t.ibufLen = s.ibufLen
  ibuf : t.ibuf = s.ibuf
  host : t.host = s.host

/-- LEN and SINK are as before (R169, R186). -/
structure SinkFrame (s t : State) : Prop where
  len : t.len = s.len
  sink : t.sink = s.sink

/-- OBUF and OLEN hold exactly these bytes and ⊥ elsewhere (R63), or ⊥ throughout (R44). -/
def HoldsBytes (t : State) : Option (List Byte) → Prop
  | none => t.olen = none ∧ ∀ a, Mem.read t.obuf a = none
  | some bs => t.olen = some (BitVec.ofNat 32 bs.length) ∧ ∀ a, Mem.read t.obuf a = bs[a]?

/-- A command ended: STATUS holds its code, RES, NOFF and OBUF with OLEN the given values or ⊥, and the rest is framed. -/
structure Ended (s t : State) (code : Byte) (res : Option DWord) (noff : Option Word) (bytes : Option (List Byte)) :
    Prop where
  frame : CommandFrame s t
  status : t.status = ⟨code, true⟩
  res : t.res = res
  noff : t.noff = noff
  bytes : HoldsBytes t bytes

/-- The bytes of a space from an index upwards are written, and are these. -/
def BytesAt (m : Mem) (a : Nat) (bs : List Byte) : Prop := ∀ i b, bs[i]? = some b → Mem.read m (a + i) = some b

/-- A list satisfies the continuation-bit rule (R100): one to ten bytes, bit 7 set on all but the last. -/
structure IsVarint (bs : List Byte) : Prop where
  nonempty : 1 ≤ bs.length
  short : bs.length ≤ 10
  continuation : ∀ i b, bs[i]? = some b → b.getLsbD 7 = decide (i + 1 < bs.length)

/-- The varint `bs` stands at OFF in the caller's buffer IBUF[0..IBUF_LEN) (R102). -/
structure VarintAt (s : State) (bs : List Byte) : Prop where
  isVarint : IsVarint bs
  inside : s.off.bits.toNat + bs.length ≤ s.ibufLen.bits.toNat
  bytes : BytesAt s.ibuf s.off.bits.toNat bs

/-- No varint ends within ten bytes or the buffer (R181): every byte the scan may read is written and has bit 7 set. -/
def NoVarintAt (s : State) : Prop :=
  ∀ i, i < 10 → s.off.bits.toNat + i < s.ibufLen.bits.toNat →
    ∃ b, Mem.read s.ibuf (s.off.bits.toNat + i) = some b ∧ b.getLsbD 7 = true

/-- IBUF_LEN is at most IBUF_MAX, as the host interface keeps it (R35). -/
def BufferFits (s : State) : Prop := s.ibufLen.bits.toNat ≤ s.build.ibufMax.toNat

/-- `sum over i < k of L[i][6:0] * 2^(7i)` (R103). -/
def payloadSum (bs : List Byte) : Nat := ∑ i ∈ Finset.range bs.length, ((bs[i]?.getD 0#8).toNat % 128) * 2 ^ (7 * i)

/-- `sum over i < k of L[i] * 2^(8i)` (R64). -/
def byteSum (bs : List Byte) : Nat := ∑ i ∈ Finset.range bs.length, (bs[i]?.getD 0#8).toNat * 2 ^ (8 * i)

/-- Two registers agree if they are both written and equal, or both hold ⊥. -/
def SameReg {w : Nat} (a b : Reg w) : Prop := a.written = b.written ∧ (a.written = true → a.bits = b.bits)

/-- Two states that agree on everything but the bits of CMD, STATUS and operand registers that hold ⊥: what R46 leaves without
a value. -/
structure SameButBottom (s t : State) : Prop where
  build : t.build = s.build
  cmd : SameReg s.cmd t.cmd
  val : SameReg s.val t.val
  off : SameReg s.off t.off
  beginReg : SameReg s.beginReg t.beginReg
  endReg : SameReg s.endReg t.endReg
  ibufLen : SameReg s.ibufLen t.ibufLen
  ibuf : t.ibuf = s.ibuf
  status : SameReg s.status t.status
  res : t.res = s.res
  noff : t.noff = s.noff
  olen : t.olen = s.olen
  obuf : t.obuf = s.obuf
  len : t.len = s.len
  sink : t.sink = s.sink
  host : t.host = s.host

/-- The three byte spaces are in canonical form, inside their sizes (R60, R72). -/
structure SpacesInv (s : State) : Prop where
  ibufWf : Mem.wf s.ibuf
  sinkWf : Mem.wf s.sink
  obufWf : Mem.wf s.obuf
  ibufBelow : Mem.below s.ibuf (spaceSize s.build .ibuf)
  sinkBelow : Mem.below s.sink (spaceSize s.build .sink)
  obufBelow : Mem.below s.obuf (spaceSize s.build .obuf)

/-- IBUF_LEN <= IBUF_MAX (R35), 0 <= LEN <= CAP (R43), and every byte of the sink's contents is written (R62). -/
structure LengthsInv (s : State) : Prop where
  bufferFits : BufferFits s
  lenLeCap : s.len.toNat ≤ s.build.cap.toNat
  contents : ∀ a, a < s.len.toNat → (Mem.read s.sink a).isSome

/-- STATUS is one of R180's codes; unless it is OK every other result register is ⊥ (R186); OBUF holds bytes exactly below
OLEN (R63); and STATUS and CMD are ⊥ together, before the first command (R49). -/
structure ResultsInv (s : State) : Prop where
  legal : s.status.written = true → ∃ st : Status, s.status.bits = st.code
  errorBottom : s.status ≠ ⟨0x00#8, true⟩ → s.res = none ∧ s.noff = none ∧ s.olen = none
  obufBottom : s.olen = none → s.obuf = []
  obufBytes : ∀ n, s.olen = some n → n.toNat ≤ spaceSize s.build .obuf ∧ ∀ a, (Mem.read s.obuf a).isSome ↔ a < n.toNat
  issued : s.cmd.written = s.status.written

/-- The invariant of every reachable state. -/
structure Inv (s : State) : Prop where
  spaces : SpacesInv s
  lengths : LengthsInv s
  results : ResultsInv s

end Sys2Proof.Safety
end

