-- ==== Sys2Proof/Certificates/Slice0/Obligations.lean ====
section
/-! DEFINITION. The statements for the provers, from the numbered rules of spec/. A statement about a command concludes that
`exec` answers a next state and says what that state is. Where a rule gives a command its effect, the premise
`bottomOperand i s = none` says that the host has written every operand register the command reads: R46 makes a read of one it
has not a model fault, and that the machine goes on there is log entry 1. The frame is `Safety.CommandFrame` (the operand registers, IBUF,
CMD, the build and the host are as before) and `Safety.SinkFrame` (LEN and SINK are as before). -/

open Sys2Proof Sys2Proof.Machine Sys2Proof.Safety

/-! ## Command words -/

/-- 30_encoding.md, R82 and R83: a few words written out from the tables. -/
def Obligations.TableWordsDecode : Prop :=
  decode 0x00000001#32 = .instr .encVarint ∧ decode 0x00000005#32 = .instr .decSvarint ∧
    decode 0x00000012#32 = .instr .zzEnc64 ∧ decode 0x00000220#32 = .instr .packFloat32 ∧
    decode 0x00000521#32 = .instr .unpackFloat64 ∧ decode 0x00000033#32 = .instr .sinkSlice

/-- Decoding and encoding agree in both directions, on every word and every command (R80 to R83). -/
def Obligations.DecodeAndEncodeAgree : Prop :=
  ∀ (w : Word) (i : Instr), decode w = .instr i ↔ encode i = w

/-- R84, R85: issuing a word that is not legal completes with IllegalCommand and ⊥ results, whatever the operands. -/
def Obligations.WordsNotLegalReportIllegalCommand : Prop :=
  ∀ (s : State) (w : Word),
    ¬(((0x01 ≤ (w.extractLsb' 0 8).toNat ∧ (w.extractLsb' 0 8).toNat ≤ 0x06) ∨
        (0x10 ≤ (w.extractLsb' 0 8).toNat ∧ (w.extractLsb' 0 8).toNat ≤ 0x13) ∨
        w.extractLsb' 0 8 = 0x20#8 ∨ w.extractLsb' 0 8 = 0x21#8 ∨
        (0x30 ≤ (w.extractLsb' 0 8).toNat ∧ (w.extractLsb' 0 8).toNat ≤ 0x34)) ∧
      w.extractLsb' 16 16 = 0#16 ∧
      ((w.extractLsb' 0 8 = 0x20#8 ∨ w.extractLsb' 0 8 = 0x21#8) ∨ w.extractLsb' 8 8 = 0x00#8)) →
    ∃ t, issue w s = .next t ∧ Ended (setCmd w s) t 0x05#8 none none none ∧ SinkFrame s t

/-- R86, R156, R187: a PACK or UNPACK word with RSV zero and KIND above 0x05 completes with UnsupportedKind, whatever
the operands. -/
def Obligations.UnsupportedKindsAreReported : Prop :=
  ∀ (s : State) (w : Word),
    w.extractLsb' 0 8 = 0x20#8 ∨ w.extractLsb' 0 8 = 0x21#8 → w.extractLsb' 16 16 = 0#16 →
    0x05 < (w.extractLsb' 8 8).toNat →
    ∃ t, issue w s = .next t ∧ Ended (setCmd w s) t 0x04#8 none none none ∧ SinkFrame s t

/-- R80, R87, R90: a step at a `.word` line whose word decodes to a command, or at that command's mnemonic line, is
the command's own execution, after the host has moved to its next line and CMD has taken the word. -/
def Obligations.StepRunsTheDecodedCommand : Prop :=
  ∀ (s : State) (w : Word) (i : Instr), decode w = .instr i →
    (currentLine s = some (.word w) → step s = exec i (setCmd w (nextLine s))) ∧
      (currentLine s = some (.command i) → step s = exec i (setCmd w (nextLine s)))

/-! ## Varints -/

/-- R104, R105, R110: with VAL written, ENC_VARINT (0x01) and ENC_SVARINT (0x02) always complete. OBUF holds a varint
of VAL, as short as can be: bit 7 set on all bytes but the last, payloads the value's 7-bit groups, and ceil(bitlength
/ 7) bytes, one for zero. -/
def Obligations.EncodersEmitTheMinimalVarint : Prop :=
  decode 0x00000001#32 = .instr .encVarint ∧ decode 0x00000002#32 = .instr .encSvarint ∧
  ∀ (s : State) (i : Instr), i = .encVarint ∨ i = .encSvarint → bottomOperand i s = none →
    ∃ t bs, exec i s = .next t ∧ Ended s t 0x00#8 none none (some bs) ∧ SinkFrame s t ∧ IsVarint bs ∧
      bs.length = max 1 ((s.val.bits.toNat.size + 6) / 7) ∧
      ∀ k b, bs[k]? = some b → b.toNat % 128 = s.val.bits.toNat / 2 ^ (7 * k) % 128

/-- R105: with VAL written, a negative value encodes to ten bytes. -/
def Obligations.NegativeValuesEncodeToTenBytes : Prop :=
  ∀ s : State, bottomOperand .encSvarint s = none → s.val.bits.toInt < 0 →
    ∃ t, exec .encSvarint s = .next t ∧ t.status = ⟨0x00#8, true⟩ ∧ t.olen = some 10#32

/-- R116: at the register level the signed and unsigned forms coincide. -/
def Obligations.SignedAndUnsignedFormsCoincide : Prop :=
  ∀ s : State, exec .encSvarint s = exec .encVarint s ∧ exec .decSvarint s = exec .decVarint s

/-- R106: with OFF and IBUF_LEN written, where a varint stands at OFF, DEC_LEN completes with its length. -/
def Obligations.DecLenGivesTheLength : Prop :=
  ∀ (s : State) (bs : List Byte), bottomOperand .decLen s = none → BufferFits s → VarintAt s bs →
    ∃ t, exec .decLen s = .next t ∧ Ended s t 0x00#8 (some (BitVec.ofNat 64 bs.length)) none none ∧ SinkFrame s t

/-- R107, R108, R103: with OFF and IBUF_LEN written, where a varint stands at OFF, DEC_VARINT and DEC_SVARINT complete
with the sum of its payloads modulo 2^64, and the offset past it. -/
def Obligations.DecodersGiveValueAndOffset : Prop :=
  ∀ (s : State) (bs : List Byte) (i : Instr), i = .decVarint ∨ i = .decSvarint → bottomOperand i s = none →
    BufferFits s → VarintAt s bs →
    ∃ t n, exec i s = .next t ∧ Ended s t 0x00#8 (some (BitVec.ofNat 64 (payloadSum bs))) (some n) none ∧
      n.toNat = s.off.bits.toNat + bs.length ∧ SinkFrame s t

/-- R109: with OFF and IBUF_LEN written, where a varint stands at OFF, RAW_TOKEN completes with its bytes and the
offset past it. -/
def Obligations.RawTokenCopiesTheBytes : Prop :=
  ∀ (s : State) (bs : List Byte), bottomOperand .rawToken s = none → BufferFits s → VarintAt s bs →
    ∃ t n, exec .rawToken s = .next t ∧ Ended s t 0x00#8 none (some n) (some bs) ∧
      n.toNat = s.off.bits.toNat + bs.length ∧ SinkFrame s t

/-- R181, R102, R114: with OFF and IBUF_LEN written, where the remainder ends before a byte with bit 7 clear, or ten
bytes in a row have bit 7 set, the four decode commands report MalformedVarint. -/
def Obligations.MalformedVarintIsReported : Prop :=
  ∀ (s : State) (i : Instr), i = .decLen ∨ i = .decVarint ∨ i = .decSvarint ∨ i = .rawToken →
    bottomOperand i s = none → BufferFits s → NoVarintAt s →
    ∃ t, exec i s = .next t ∧ Ended s t 0x01#8 none none none ∧ SinkFrame s t

/-- R46, R102: with OFF and IBUF_LEN written, a scan that comes to a byte the host never wrote, inside the buffer and
the first ten bytes, is the model fault `Unwritten(IBUF[OFF + k])`; no byte past the scan's end can fault it (the two
statements above put nothing on them). -/
def Obligations.ScanOfAnUnwrittenByteFaults : Prop :=
  ∀ (s : State) (k : Nat) (i : Instr), i = .decLen ∨ i = .decVarint ∨ i = .decSvarint ∨ i = .rawToken →
    bottomOperand i s = none → BufferFits s → k < 10 → s.off.bits.toNat + k < s.ibufLen.bits.toNat →
    (∀ m, m < k → ∃ b, Mem.read s.ibuf (s.off.bits.toNat + m) = some b ∧ b.getLsbD 7 = true) →
    Mem.read s.ibuf (s.off.bits.toNat + k) = none →
    exec i s = .fault (.unwritten (.byte .ibuf (s.off.bits.toNat + k)))

/-- R115: DEC_VARINT, DEC_SVARINT and RAW_TOKEN fail exactly when DEC_LEN in the same state fails, and with the same
status. -/
def Obligations.DecodersFailExactlyWithDecLen : Prop :=
  ∀ (s : State) (i : Instr), i = .decVarint ∨ i = .decSvarint ∨ i = .rawToken →
    ((∃ t, exec i s = .next t ∧ t.status = ⟨0x01#8, true⟩) ↔ ∃ t, exec .decLen s = .next t ∧ t.status = ⟨0x01#8, true⟩) ∧
      ((∃ t, exec i s = .next t ∧ t.status = ⟨0x00#8, true⟩) ↔ ∃ t, exec .decLen s = .next t ∧ t.status = ⟨0x00#8, true⟩)

/-- R113: with OFF and IBUF_LEN written, a ten-byte varint decodes; bit 0 of the tenth byte is bit 63 of the value,
and its bits 6 to 1 are discarded. -/
def Obligations.TenthByteGivesBit63Only : Prop :=
  ∀ (s : State) (bs : List Byte) (last : Byte), bottomOperand .decVarint s = none → BufferFits s →
    VarintAt s (bs ++ [last]) → bs.length = 9 →
    ∃ t, exec .decVarint s = .next t ∧ t.status = ⟨0x00#8, true⟩ ∧
      t.res = some (BitVec.ofNat 64 (payloadSum bs + last.toNat % 2 * 2 ^ 63))

/-- R112: `VAL := v; ENC_VARINT; IBUF := OBUF; OFF := 0; DEC_VARINT` gives back the value, and NOFF the length. -/
def Obligations.VarintRoundTrip : Prop :=
  ∀ (s : State) (v : DWord), 10 ≤ s.build.ibufMax.toNat →
    ∃ t u, runLines [.write .val (.const v.toNat), .command .encVarint] s = .next t ∧
      runLines [.copyObuf, .write .off (.const 0), .command .decVarint] t = .next u ∧
      u.status = ⟨0x00#8, true⟩ ∧ u.res = some v ∧ u.noff = t.olen

/-! ## Zigzag -/

/-- R130, R132 in R135's closed form: with VAL written, ZZ_ENC32 (0x10) and ZZ_ENC64 (0x12) always complete, and
zigzag(n) is 2n for n >= 0 and -2n - 1 for n < 0; a 32-bit result is zero-extended. -/
def Obligations.ZigzagEncodeClosedForm : Prop :=
  decode 0x00000010#32 = .instr .zzEnc32 ∧ decode 0x00000012#32 = .instr .zzEnc64 ∧
  ∀ s : State, s.val.written = true →
    (∃ t r, exec .zzEnc32 s = .next t ∧ Ended s t 0x00#8 (some r) none none ∧ SinkFrame s t ∧
      (r.toNat : Int) = if 0 ≤ (s.val.bits.extractLsb' 0 32).toInt then 2 * (s.val.bits.extractLsb' 0 32).toInt
        else -2 * (s.val.bits.extractLsb' 0 32).toInt - 1) ∧
    ∃ t r, exec .zzEnc64 s = .next t ∧ Ended s t 0x00#8 (some r) none none ∧ SinkFrame s t ∧
      (r.toNat : Int) = if 0 ≤ s.val.bits.toInt then 2 * s.val.bits.toInt else -2 * s.val.bits.toInt - 1

/-- R131, R133 in R135's closed form: with VAL written, ZZ_DEC32 (0x11) and ZZ_DEC64 (0x13) always complete, and
unzigzag(z) is z / 2 for even z and -(z + 1) / 2 for odd z; a 32-bit result is sign-extended. -/
def Obligations.ZigzagDecodeClosedForm : Prop :=
  decode 0x00000011#32 = .instr .zzDec32 ∧ decode 0x00000013#32 = .instr .zzDec64 ∧
  ∀ s : State, s.val.written = true →
    (∃ t r, exec .zzDec32 s = .next t ∧ Ended s t 0x00#8 (some r) none none ∧ SinkFrame s t ∧
      r.toInt = if s.val.bits.toNat % 2 ^ 32 % 2 = 0 then ((s.val.bits.toNat % 2 ^ 32 : Nat) : Int) / 2
        else -(((s.val.bits.toNat % 2 ^ 32 : Nat) : Int) + 1) / 2) ∧
    ∃ t r, exec .zzDec64 s = .next t ∧ Ended s t 0x00#8 (some r) none none ∧ SinkFrame s t ∧
      r.toInt = if s.val.bits.toNat % 2 = 0 then (s.val.bits.toNat : Int) / 2 else -((s.val.bits.toNat : Int) + 1) / 2

/-- R134: `VAL := v; ZZ_ENCn; t := RES; VAL := t; ZZ_DECn` leaves RES = sext_64(v[31:0]) for 32 bits and RES = v for
64. -/
def Obligations.ZigzagRoundTrip : Prop :=
  ∀ (s : State) (v : DWord) (x : Nat),
    (∃ t, runLines [.write .val (.const v.toNat), .command .zzEnc32, .read x .res, .write .val (.var x),
        .command .zzDec32] s = .next t ∧ t.res = some ((v.extractLsb' 0 32).signExtend 64)) ∧
    ∃ t, runLines [.write .val (.const v.toNat), .command .zzEnc64, .read x .res, .write .val (.var x),
        .command .zzDec64] s = .next t ∧ t.res = some v

/-- R136, R91: ENC_SINT32 encodes every i32 in one to five bytes, and ENC_SINT64 every i64 in one to ten. The same for an n
outside that range, of which R13 gives no pattern, is the model's choice: the pattern is n modulo the width (log entry 18). -/
def Obligations.SignedFieldsHaveBoundedLength : Prop :=
  ∀ (s : State) (n : Int) (x : Nat),
    (∃ t k, runLines (Pseudo.expand (.encSint32 (.const n) x)) s = .next t ∧ t.olen = some k ∧
      1 ≤ k.toNat ∧ k.toNat ≤ 5) ∧
    ∃ t k, runLines (Pseudo.expand (.encSint64 (.const n) x)) s = .next t ∧ t.olen = some k ∧
      1 ≤ k.toNat ∧ k.toNat ≤ 10

/-! ## Fixed width -/

/-- R143 to R148: with VAL written, PACK of each kind (0x20, KIND 0 to 5) always completes with W bytes; bit k of byte
j is bit 8j + k of VAL. -/
def Obligations.PackEmitsLittleEndianBytes : Prop :=
  (decode 0x00000020#32 = .instr .packInt32 ∧ decode 0x00000120#32 = .instr .packUint32 ∧
    decode 0x00000220#32 = .instr .packFloat32 ∧ decode 0x00000320#32 = .instr .packInt64 ∧
    decode 0x00000420#32 = .instr .packUint64 ∧ decode 0x00000520#32 = .instr .packFloat64) ∧
  ∀ (s : State) (i : Instr) (n : Nat),
    (n = 4 ∧ (i = .packInt32 ∨ i = .packUint32 ∨ i = .packFloat32)) ∨
      (n = 8 ∧ (i = .packInt64 ∨ i = .packUint64 ∨ i = .packFloat64)) →
    bottomOperand i s = none →
    ∃ t bs, exec i s = .next t ∧ Ended s t 0x00#8 none none (some bs) ∧ SinkFrame s t ∧ bs.length = n ∧
      ∀ j b, bs[j]? = some b → ∀ k, k < 8 → b.getLsbD k = s.val.bits.getLsbD (8 * j + k)

/-- R149, R151 to R155: with OFF and IBUF_LEN written, UNPACK of every kind but int32 (0x21, KIND 1 to 5) reads the
bytes up to W or the buffer's end, and RES is their little-endian sum: bytes past the end are zero. -/
def Obligations.UnpackZeroPadsTheRemainder : Prop :=
  (decode 0x00000121#32 = .instr .unpackUint32 ∧ decode 0x00000221#32 = .instr .unpackFloat32 ∧
    decode 0x00000321#32 = .instr .unpackInt64 ∧ decode 0x00000421#32 = .instr .unpackUint64 ∧
    decode 0x00000521#32 = .instr .unpackFloat64) ∧
  ∀ (s : State) (i : Instr) (n : Nat) (bs : List Byte),
    (n = 4 ∧ (i = .unpackUint32 ∨ i = .unpackFloat32)) ∨
      (n = 8 ∧ (i = .unpackInt64 ∨ i = .unpackUint64 ∨ i = .unpackFloat64)) →
    bottomOperand i s = none → BufferFits s → bs.length = min n (s.ibufLen.bits.toNat - s.off.bits.toNat) →
    BytesAt s.ibuf s.off.bits.toNat bs →
    ∃ t r, exec i s = .next t ∧ Ended s t 0x00#8 (some r) none none ∧ SinkFrame s t ∧ r.toNat = byteSum bs

/-- R149, R150: with OFF and IBUF_LEN written, UNPACK.int32 (0x21, KIND 0) reads the same bytes and sign-extends the
32-bit word they make. -/
def Obligations.UnpackInt32SignExtends : Prop :=
  decode 0x00000021#32 = .instr .unpackInt32 ∧
  ∀ (s : State) (bs : List Byte),
    bottomOperand .unpackInt32 s = none → BufferFits s → bs.length = min 4 (s.ibufLen.bits.toNat - s.off.bits.toNat) →
    BytesAt s.ibuf s.off.bits.toNat bs →
    ∃ t r, exec .unpackInt32 s = .next t ∧ Ended s t 0x00#8 (some r) none none ∧ SinkFrame s t ∧
      r.toInt = if byteSum bs < 2 ^ 31 then (byteSum bs : Int) else (byteSum bs : Int) - 2 ^ 32

/-- R158: packing a value and unpacking the bytes gives sext_64(v[31:0]) for int32, zext_64(v[31:0]) for uint32 and
float32, and v for the 64-bit kinds. -/
def Obligations.PackUnpackRoundTrip : Prop :=
  ∀ (s : State) (v r : DWord) (p u : Instr), 8 ≤ s.build.ibufMax.toNat →
    (p = .packInt32 ∧ u = .unpackInt32 ∧ r = (v.extractLsb' 0 32).signExtend 64) ∨
      (p = .packUint32 ∧ u = .unpackUint32 ∧ r = (v.extractLsb' 0 32).setWidth 64) ∨
      (p = .packFloat32 ∧ u = .unpackFloat32 ∧ r = (v.extractLsb' 0 32).setWidth 64) ∨
      (p = .packInt64 ∧ u = .unpackInt64 ∧ r = v) ∨ (p = .packUint64 ∧ u = .unpackUint64 ∧ r = v) ∨
      (p = .packFloat64 ∧ u = .unpackFloat64 ∧ r = v) →
    ∃ t, runLines [.write .val (.const v.toNat), .command p, .copyObuf, .write .off (.const 0), .command u] s =
      .next t ∧ t.status = ⟨0x00#8, true⟩ ∧ t.res = some r

/-! ## The byte sink -/

/-- R161, R62: with IBUF_LEN written, an append that fits completes with OK. LEN grows by IBUF_LEN, SINK[LEN .. LEN +
n) takes the bytes of IBUF, and every other SINK byte is as before. -/
def Obligations.AppendCopiesTheBuffer : Prop :=
  ∀ (s : State) (bs : List Byte), bottomOperand .sinkAppend s = none → BufferFits s →
    s.len.toNat + s.ibufLen.bits.toNat ≤ s.build.cap.toNat →
    bs.length = s.ibufLen.bits.toNat → BytesAt s.ibuf 0 bs →
    ∃ t, exec .sinkAppend s = .next t ∧ Ended s t 0x00#8 none none none ∧
      t.len.toNat = s.len.toNat + s.ibufLen.bits.toNat ∧ BytesAt t.sink s.len.toNat bs ∧
      ∀ a, a < s.len.toNat ∨ s.len.toNat + bs.length ≤ a → Mem.read t.sink a = Mem.read s.sink a

/-- R182 (and R161, R166): with IBUF_LEN written, an append past CAP reports CapacityExceeded, reads no byte of IBUF,
and leaves LEN and SINK as they were. -/
def Obligations.AppendPastCapacityIsReported : Prop :=
  ∀ s : State, bottomOperand .sinkAppend s = none → s.build.cap.toNat < s.len.toNat + s.ibufLen.bits.toNat →
    ∃ t, exec .sinkAppend s = .next t ∧ Ended s t 0x02#8 none none none ∧ SinkFrame s t

/-- R162: SINK_LEN (0x31) always completes with LEN. -/
def Obligations.SinkLenGivesLen : Prop :=
  decode 0x00000031#32 = .instr .sinkLen ∧
  ∀ s : State, ∃ t r, exec .sinkLen s = .next t ∧ Ended s t 0x00#8 (some r) none none ∧ r.toNat = s.len.toNat ∧
    SinkFrame s t

/-- R163: SINK_BYTES (0x32) completes with SINK[0..LEN) in OBUF. -/
def Obligations.SinkBytesGivesTheContents : Prop :=
  decode 0x00000032#32 = .instr .sinkBytes ∧
  ∀ (s : State) (bs : List Byte), s.len.toNat ≤ s.build.cap.toNat → bs.length = s.len.toNat → BytesAt s.sink 0 bs →
    ∃ t, exec .sinkBytes s = .next t ∧ Ended s t 0x00#8 none none (some bs) ∧ SinkFrame s t

/-- R164: with BEGIN and END written, SINK_SLICE with 1 <= BEGIN <= END <= LEN completes with SINK[BEGIN - 1 .. END)
in OBUF. -/
def Obligations.SliceGivesTheRange : Prop :=
  ∀ (s : State) (bs : List Byte), bottomOperand .sinkSlice s = none → s.len.toNat ≤ s.build.cap.toNat →
    1 ≤ s.beginReg.bits.toNat → s.beginReg.bits.toNat ≤ s.endReg.bits.toNat → s.endReg.bits.toNat ≤ s.len.toNat →
    bs.length = s.endReg.bits.toNat - s.beginReg.bits.toNat + 1 → BytesAt s.sink (s.beginReg.bits.toNat - 1) bs →
    ∃ t, exec .sinkSlice s = .next t ∧ Ended s t 0x00#8 none none (some bs) ∧ SinkFrame s t

/-- R183: with BEGIN and END written, SINK_SLICE reports OutOfRange when BEGIN < 1, BEGIN > END or END > LEN. -/
def Obligations.SliceOutOfRangeIsReported : Prop :=
  ∀ s : State, bottomOperand .sinkSlice s = none → s.beginReg.bits.toNat < 1 ∨ s.endReg.bits.toNat < s.beginReg.bits.toNat ∨
      s.len.toNat < s.endReg.bits.toNat →
    ∃ t, exec .sinkSlice s = .next t ∧ Ended s t 0x03#8 none none none ∧ SinkFrame s t

/-- R167: with BEGIN and END written, the slice from 1 to LEN is the whole contents for LEN at least 1; a slice with
BEGIN > END or END > LEN fails with OutOfRange; at LEN = 0 the slice from 1 to 0 fails so, while SINK_BYTES returns
the empty list. -/
def Obligations.SliceLaws : Prop :=
  ∀ s : State, bottomOperand .sinkSlice s = none →
    (1 ≤ s.len.toNat → s.beginReg.bits = 1#32 → s.endReg.bits = s.len → exec .sinkSlice s = exec .sinkBytes s) ∧
    (s.endReg.bits.toNat < s.beginReg.bits.toNat ∨ s.len.toNat < s.endReg.bits.toNat →
      ∃ t, exec .sinkSlice s = .next t ∧ t.status = ⟨0x03#8, true⟩) ∧
    (s.len = 0#32 → s.beginReg.bits = 1#32 → s.endReg.bits = 0#32 →
      (∃ t, exec .sinkSlice s = .next t ∧ t.status = ⟨0x03#8, true⟩) ∧
        ∃ t, exec .sinkBytes s = .next t ∧ t.status = ⟨0x00#8, true⟩ ∧ HoldsBytes t (some []))

/-- R165: SINK_CLEAR (0x34) always completes; LEN is 0 and every SINK byte stays in place. -/
def Obligations.ClearEmptiesTheSink : Prop :=
  decode 0x00000034#32 = .instr .sinkClear ∧
  ∀ s : State, ∃ t, exec .sinkClear s = .next t ∧ Ended s t 0x00#8 none none none ∧ t.len = 0#32 ∧
    ∀ a, Mem.read t.sink a = Mem.read s.sink a

/-- R169: a command of any sub-block but the byte sink leaves LEN and SINK unchanged. -/
def Obligations.CodecCommandsLeaveTheSink : Prop :=
  ∀ (i : Instr) (s t : State), subBlock i ≠ .byteSink → exec i s = .next t → SinkFrame s t

/-- R62: but for SINK_CLEAR, no command shortens the sink or writes a byte below LEN. -/
def Obligations.SinkIsAppendOnly : Prop :=
  ∀ (i : Instr) (s t : State), i ≠ .sinkClear → exec i s = .next t →
    s.len.toNat ≤ t.len.toNat ∧ ∀ a, a < s.len.toNat → Mem.read t.sink a = Mem.read s.sink a

/-! ## Every command -/

/-- R37, R36, R42: no command writes an operand register, IBUF, CMD or the build, or touches the host. -/
def Obligations.CommandsNeverWriteOperands : Prop :=
  ∀ (i : Instr) (s t : State), exec i s = .next t → CommandFrame s t

/-- R44, R48: whatever word is issued, STATUS receives a code of R180; on success the word is a command and each of
RES, NOFF and OLEN holds a value exactly where R48 writes one; on an error none does; OBUF holds bytes exactly below
OLEN where OLEN holds a value, and none where OLEN is ⊥. -/
def Obligations.EveryCommandWritesEveryResult : Prop :=
  ∀ (w : Word) (s t : State), issue w s = .next t →
    (∃ st : Status, t.status = ⟨st.code, true⟩) ∧
      (t.status = ⟨0x00#8, true⟩ → ∃ i, decode w = .instr i ∧ (t.res.isSome ↔ .res ∈ resultsOf i) ∧
        (t.noff.isSome ↔ .noff ∈ resultsOf i) ∧ (t.olen.isSome ↔ .olen ∈ resultsOf i)) ∧
      (t.status ≠ ⟨0x00#8, true⟩ → t.res = none ∧ t.noff = none ∧ t.olen = none) ∧
      (t.olen = none → ∀ a, Mem.read t.obuf a = none) ∧
      ∀ n, t.olen = some n → ∀ a, (Mem.read t.obuf a).isSome ↔ a < n.toNat

/-- R186: a command word that reports an error, a command's or one that is no command, changes nothing but the result
registers, and every one of those but STATUS is ⊥. -/
def Obligations.ErrorsArePrecise : Prop :=
  ∀ (w : Word) (s t : State) (c : Byte), issue w s = .next t → t.status = ⟨c, true⟩ → c ≠ 0x00#8 →
    Ended (setCmd w s) t c none none none ∧ SinkFrame s t

/-- R205, R44: no command's outcome depends on what an earlier command left in the result registers or OBUF. -/
def Obligations.OldResultsDoNotMatter : Prop :=
  ∀ (i : Instr) (s : State) (status : Reg 8) (res : Option DWord) (noff olen : Option Word) (obuf : Mem),
    exec i { s with status := status, res := res, noff := noff, olen := olen, obuf := obuf } = exec i s

/-- R71, R188: but for an append that succeeds, a command issued again gives the same state. -/
def Obligations.RepeatedCommandsAgree : Prop :=
  ∀ (i : Instr) (s t : State), exec i s = .next t → i ≠ .sinkAppend ∨ t.status ≠ ⟨0x00#8, true⟩ → exec i t = .next t

/-- R46, R204 and log entry 1 (the model's choice): where a command reads no operand register that holds ⊥, the bits
the model keeps in registers that hold ⊥ do not matter. -/
def Obligations.ValuesOfUnwrittenRegistersDoNotMatter : Prop :=
  ∀ (i : Instr) (s s' : State), SameButBottom s s' → bottomOperand i s = none →
    (∀ t, exec i s = .next t → ∃ t', exec i s' = .next t' ∧ SameButBottom t t') ∧
      ∀ e, exec i s = .fault e → exec i s' = .fault e

/-- R199: no command is refused. -/
def Obligations.NoCommandIsRefused : Prop :=
  ∀ (i : Instr) (s : State) (r : Refusal), exec i s ≠ .refused r

/-- R46, R61 and log entry 1 (the model's choice): in a state that meets the invariant a command stops only on a byte
of IBUF below IBUF_LEN that the host never wrote. R46 makes a command fault on an operand register the host never
wrote as well; that the machine goes on there is log entry 1, and where `bottomOperand i s = none` R46 gives no other
fault than this one. -/
def Obligations.CommandsFaultOnUnwrittenInputOnly : Prop :=
  ∀ (i : Instr) (s : State) (e : Fault), Inv s → exec i s = .fault e →
    ∃ a, e = .unwritten (.byte .ibuf a) ∧ a < s.ibufLen.bits.toNat ∧ Mem.read s.ibuf a = none

/-- R204: after the host has written IBUF[0..IBUF_LEN), every command completes. That an unwritten operand register
does not stop it is the model's choice (log entry 1). -/
def Obligations.WrittenInputLetsEveryCommandComplete : Prop :=
  ∀ (i : Instr) (s : State), Inv s → (∀ a, a < s.ibufLen.bits.toNat → (Mem.read s.ibuf a).isSome) →
    ∃ t, exec i s = .next t

/-! ## The host port -/

/-- R50, R90: a write of VAL, OFF, BEGIN or END takes the value; IBUF_LEN takes n for n <= IBUF_MAX, and IBUF[k] takes
b for k < IBUF_MAX. The host moves to its next line and nothing else changes. That a value outside a register's range
is taken modulo it is the model's choice (log entry 9). -/
def Obligations.HostWritesTakeEffect : Prop :=
  ∀ (s : State) (e f : Expr) (v k : Int), evalExpr s e = .next (.int v) → evalExpr s f = .next (.int k) →
    (currentLine s = some (.write .val e) →
      step s = .next { nextLine s with val := ⟨BitVec.ofInt 64 v, true⟩ }) ∧
    (currentLine s = some (.write .off e) →
      step s = .next { nextLine s with off := ⟨BitVec.ofInt 32 v, true⟩ }) ∧
    (currentLine s = some (.write .beginReg e) →
      step s = .next { nextLine s with beginReg := ⟨BitVec.ofInt 32 v, true⟩ }) ∧
    (currentLine s = some (.write .endReg e) →
      step s = .next { nextLine s with endReg := ⟨BitVec.ofInt 32 v, true⟩ }) ∧
    (currentLine s = some (.write .ibufLen e) → 0 ≤ v → v ≤ s.build.ibufMax.toNat →
      ∃ n : Word, (n.toNat : Int) = v ∧ step s = .next { nextLine s with ibufLen := ⟨n, true⟩ }) ∧
    (currentLine s = some (.writeIbuf f e) → 0 ≤ k → k < s.build.ibufMax.toNat →
      ∃ t, step s = .next t ∧ Mem.read t.ibuf k.toNat = some (BitVec.ofInt 8 v) ∧
        (∀ a, a ≠ k.toNat → Mem.read t.ibuf a = Mem.read s.ibuf a) ∧ t = { nextLine s with ibuf := t.ibuf })

/-- R52: writing IBUF_LEN > IBUF_MAX, writing IBUF[k] for k >= IBUF_MAX, and reading OBUF[k] for k >= OLEN, where OLEN
is not ⊥, are refused. R52's fourth action, a read of a result register that holds ⊥, is R46's model fault in this
model (log entry 7, stated below). -/
def Obligations.HostActionsOutsideThePortAreRefused : Prop :=
  ∀ (s : State) (e f : Expr) (v k : Int), evalExpr s e = .next (.int v) → evalExpr s f = .next (.int k) →
    (currentLine s = some (.write .ibufLen e) → (s.build.ibufMax.toNat : Int) < v →
      step s = .refused (.ibufLenAboveMax v)) ∧
    (currentLine s = some (.writeIbuf f e) → (s.build.ibufMax.toNat : Int) ≤ k →
      step s = .refused (.ibufIndexOutside k)) ∧
    ∀ (x : Nat) (n : Word), currentLine s = some (.readObuf x f) → s.olen = some n → (n.toNat : Int) ≤ k →
      step s = .refused (.obufIndexOutside k)

/-- R46, R71, R50, R42, R31: a host read of STATUS, RES, NOFF, OLEN, CAP or CMD puts the register's value into the host's
variable and changes nothing else, and a read of RES, NOFF or OLEN that a command left ⊥ is the model fault `Unwritten` (log
entry 7). That a read before the first command, of STATUS and CMD too, goes on with some value is log entry 1, and that CMD can
be read is log entry 8. -/
def Obligations.HostReadsAreValuesOrModelFaults : Prop :=
  ∀ (s : State) (x : Nat),
    (currentLine s = some (.read x .status) → step s = .next (setVar x (.int s.status.bits.toNat) (nextLine s))) ∧
    (currentLine s = some (.read x .res) →
      (∀ c, s.res = some c → step s = .next (setVar x (.int c.toNat) (nextLine s))) ∧
        (s.res = none → s.status.written = true → step s = .fault (.unwritten (.result .res))) ∧
        (s.res = none → s.status.written = false → ∃ n, step s = .next (setVar x (.int n) (nextLine s)))) ∧
    (currentLine s = some (.read x .noff) →
      (∀ c, s.noff = some c → step s = .next (setVar x (.int c.toNat) (nextLine s))) ∧
        (s.noff = none → s.status.written = true → step s = .fault (.unwritten (.result .noff))) ∧
        (s.noff = none → s.status.written = false → ∃ n, step s = .next (setVar x (.int n) (nextLine s)))) ∧
    (currentLine s = some (.read x .olen) →
      (∀ c, s.olen = some c → step s = .next (setVar x (.int c.toNat) (nextLine s))) ∧
        (s.olen = none → s.status.written = true → step s = .fault (.unwritten (.result .olen))) ∧
        (s.olen = none → s.status.written = false → ∃ n, step s = .next (setVar x (.int n) (nextLine s)))) ∧
    (currentLine s = some (.read x .cap) → step s = .next (setVar x (.int s.build.cap.toNat) (nextLine s))) ∧
    (currentLine s = some (.read x .cmd) → step s = .next (setVar x (.int s.cmd.bits.toNat) (nextLine s)))

/-- R50, R63, R90: in a state that meets the invariant, the host reads OBUF[k] for every k < OLEN, and `t := OBUF`
reads OBUF[0..OLEN) as a list. -/
def Obligations.HostReadsEveryOutputByte : Prop :=
  ∀ (s : State) (x : Nat) (f : Expr) (k : Int) (n : Word), Inv s → s.olen = some n →
    (evalExpr s f = .next (.int k) → currentLine s = some (.readObuf x f) → 0 ≤ k → k < n.toNat →
      ∃ b, Mem.read s.obuf k.toNat = some b ∧ step s = .next (setVar x (.int b.toNat) (nextLine s))) ∧
    (currentLine s = some (.read x .obuf) →
      ∃ bs : List Byte, bs.length = n.toNat ∧ (∀ a, a < n.toNat → bs[a]? = Mem.read s.obuf a) ∧
        step s = .next (setVar x (.bytes bs) (nextLine s)))

/-- R90: `IBUF := [b0 ... bk]` writes the bytes from index 0, leaves those past them, and writes IBUF_LEN := k + 1.
That the line is one step is the model's reading (log entry 11). -/
def Obligations.BufferLinesWriteBytesAndLength : Prop :=
  ∀ (s : State) (l : Expr) (bs : List Byte), currentLine s = some (.setIbuf l) → evalExpr s l = .next (.bytes bs) →
    bs.length ≤ s.build.ibufMax.toNat →
    ∃ (t : State) (n : Word), step s = .next t ∧ n.toNat = bs.length ∧ t.ibufLen = ⟨n, true⟩ ∧ BytesAt t.ibuf 0 bs ∧
      (∀ a, bs.length ≤ a → Mem.read t.ibuf a = Mem.read s.ibuf a) ∧
      t = { nextLine s with ibuf := t.ibuf, ibufLen := t.ibufLen }

/-- R90, R206: `IBUF := OBUF` copies OBUF[0..OLEN) to IBUF[0..OLEN), leaves the bytes of IBUF past them, and writes
IBUF_LEN := OLEN. That the line is one step is the model's reading (log entry 11). -/
def Obligations.CopyMovesOutputToInput : Prop :=
  ∀ (s : State) (n : Word), Inv s → currentLine s = some .copyObuf → s.olen = some n →
    n.toNat ≤ s.build.ibufMax.toNat →
    ∃ t, step s = .next t ∧ t.ibufLen = ⟨n, true⟩ ∧
      (∀ a, a < n.toNat → Mem.read t.ibuf a = Mem.read s.obuf a) ∧
      (∀ a, n.toNat ≤ a → Mem.read t.ibuf a = Mem.read s.ibuf a) ∧
      t = { nextLine s with ibuf := t.ibuf, ibufLen := t.ibufLen }

/-- R91, R161: after a command that left bytes in OBUF, APPEND_OBUF adds exactly those bytes to the sink. -/
def Obligations.AppendObufAddsTheOutput : Prop :=
  ∀ (s : State) (n : Word), Inv s → s.olen = some n → n.toNat ≤ s.build.ibufMax.toNat →
    s.len.toNat + n.toNat ≤ s.build.cap.toNat →
    ∃ t, runLines (Pseudo.expand .appendObuf) s = .next t ∧ t.status = ⟨0x00#8, true⟩ ∧
      t.len.toNat = s.len.toNat + n.toNat ∧
      (∀ a, a < n.toNat → Mem.read t.sink (s.len.toNat + a) = Mem.read s.obuf a) ∧
      ∀ a, a < s.len.toNat → Mem.read t.sink a = Mem.read s.sink a

/-- R90: `goto label`, and `if COND goto label` when the condition holds, go to the label's line; the branch goes to
the next line when the condition fails. The grammar of conditions, and the first line where a program repeats a label,
are the model's choice (log entry 16). -/
def Obligations.BranchesFollowTheirCondition : Prop :=
  ∀ (s : State) (c : Cond) (l : Nat),
    (∀ k, findLabel s.host.program l = some k →
      s.host.program[k]? = some (.label l) ∧
        (currentLine s = some (.goto l) ∨ (currentLine s = some (.branch c l) ∧ evalCond s c = .next true) →
          step s = .next { s with host := { s.host with pos := k } })) ∧
    (currentLine s = some (.branch c l) → evalCond s c = .next false → step s = .next (nextLine s))

/-- R90: in a well-formed host program no jump lacks its label, and a step keeps the program. -/
def Obligations.WellFormedProgramsJumpToTheirLabels : Prop :=
  ∀ s : State, programWellFormed s.host.program = true →
    (∀ l, step s ≠ .refused (.noSuchLabel l)) ∧ ∀ t, step s = .next t → t.host.program = s.host.program

/-- R211, R11, R198: a host at `halt` or with no next line leaves everything as it is. That a step after the run's end
answers the same state is the model's choice (log entry 5). -/
def Obligations.IdleHostChangesNothing : Prop :=
  ∀ s : State, currentLine s = some .halt ∨ currentLine s = none → step s = .next s

/-! ## Reset and invariants -/

/-- R49, R200, R201: the values the spec gives for reset, in the default build and for an asserted reset of any instance: CMD,
STATUS and every operand register unwritten, RES, NOFF and OLEN ⊥, LEN 0, every IBUF and OBUF byte ⊥, CAP its build value. -/
def Obligations.ResetLeavesTheSpecsValues : Prop :=
  State.reset.build.cap = 65535#32 ∧
    ∀ s t : State, t = State.reset ∨ t = assertReset s →
      t.cmd.written = false ∧ t.status.written = false ∧ t.res = none ∧ t.noff = none ∧ t.olen = none ∧ t.len = 0#32 ∧
        (∀ a, Mem.read t.ibuf a = none ∧ Mem.read t.obuf a = none) ∧ (∀ r, isWritten t r = false) ∧
        (t = assertReset s → t.build = s.build)

/-- R202: SINK_CLEAR and reset have the same effect on LEN, but SINK_CLEAR writes STATUS OK and keeps the operands and
IBUF, where reset makes STATUS, the operands and IBUF ⊥ (the other results are ⊥ after both). -/
def Obligations.ClearAndResetDiffer : Prop :=
  ∀ s : State, ∃ t, exec .sinkClear s = .next t ∧ t.len = (assertReset s).len ∧
    Ended s t 0x00#8 none none none ∧ (assertReset s).status.written = false ∧
    (∀ a, Mem.read (assertReset s).ibuf a = none) ∧ ∀ r, isWritten (assertReset s) r = false

/-- R43, R49: the invariant holds at reset, and in every state an asserted reset leaves. Its clause IBUF_LEN <= IBUF_MAX (R35),
for every IBUF_MAX, rests on the model's choice: R49 leaves IBUF_LEN ⊥, and the model keeps the bits 0 there (log entry 1). -/
def Obligations.ResetMeetsTheInvariant : Prop := Inv State.reset ∧ ∀ s, Inv (assertReset s)

/-- Every step keeps the invariant: the byte spaces stay in canonical form inside their sizes (R60), IBUF_LEN <=
IBUF_MAX (R35), LEN <= CAP (R43), the sink's contents are written (R62), STATUS holds a code of R180, a result
register holds a value only after OK (R186), and OBUF holds bytes exactly below OLEN (R63). -/
def Obligations.StepKeepsTheInvariant : Prop :=
  ∀ s t : State, Inv s → step s = .next t → Inv t

/-- R42, R10: no step and no reset changes CAP or IBUF_MAX. -/
def Obligations.BuildNeverChanges : Prop :=
  (∀ s t : State, step s = .next t → t.build = s.build) ∧ ∀ s : State, (assertReset s).build = s.build

/-- R30, R50, R37: only the host writes operand registers and IBUF: a step at a line that issues a command, a `.word`
line or a mnemonic, leaves them alone, keeps the word in CMD, and moves the host to its next line. -/
def Obligations.IssuingLeavesOperandsAlone : Prop :=
  ∀ (s t : State) (w : Word),
    currentLine s = some (.word w) ∨ (∃ i, w = encode i ∧ currentLine s = some (.command i)) → step s = .next t →
    CommandFrame (setCmd w (nextLine s)) t ∧ ∃ st : Status, t.status = ⟨st.code, true⟩

/-! ## Host expressions -/

/-- R13: the conversions reinterpret a pattern, reduce an integer of their domain to a pattern, and widen a pattern.
-/
def Obligations.ConversionsReinterpretAndWiden : Prop :=
  ∀ (w : Word) (d : DWord),
    (Conv.s32.apply w.toNat = w.toInt ∧ Conv.s64.apply d.toNat = d.toInt) ∧
    (Conv.u32.apply w.toNat = w.toNat ∧ Conv.u64.apply d.toNat = d.toNat) ∧
    (∀ n : Int, -2 ^ 63 ≤ n → n < 2 ^ 64 → Conv.bits64.apply n = n % 2 ^ 64) ∧
    (∀ n : Int, -2 ^ 31 ≤ n → n < 2 ^ 32 → Conv.bits32.apply n = n % 2 ^ 32) ∧
    Conv.zext64.apply d.toNat = d.toNat ∧
    Conv.sext64.apply w.toNat = if w.toNat < 2 ^ 31 then (w.toNat : Int) else w.toNat + (2 ^ 64 - 2 ^ 32)
end

