-- ==== Sys2Proof/Laws/Formats.lean ====
section
/-! SUPPORT. The data formats: varint_bytes and varint_value (R101, R103), le_bytes and le_word (R64), zigzag (R130 to
R135). -/

namespace Sys2Proof.Machine

open Sys2Proof.Safety

/-- One iteration of R101's loop. -/
theorem varintLoop_succ (k : Nat) (v : DWord) : varintLoop (k + 1) v =
    if v < 0x80#64 then [v.extractLsb' 0 8] else (0x80#8 ||| (v.extractLsb' 0 7).setWidth 8) :: varintLoop k (v >>> 7) :=
  rfl

theorem lastByte_toNat {v : DWord} (h : v < 0x80#64) : (v.extractLsb' 0 8).toNat = v.toNat := by
  have : v.toNat < 128 := by simpa [BitVec.lt_def] using h
  simp [BitVec.extractLsb'_toNat]
  omega

theorem moreByte_toNat (v : DWord) : (0x80#8 ||| (v.extractLsb' 0 7).setWidth 8).toNat = 128 + v.toNat % 128 := by
  have h : v.toNat % 128 < 2 ^ 7 := by omega
  have := Nat.two_pow_add_eq_or_of_lt h 1
  simpa [BitVec.extractLsb'_toNat, Nat.mod_eq_of_lt (show v.toNat % 128 < 256 by omega)] using this.symm

theorem byte_bit7 (b : Byte) : b.getLsbD 7 = decide (128 ≤ b.toNat) := by
  revert b; decide

/-- Dropping seven bits shortens a number that has more by seven. -/
theorem size_div_128 {n : Nat} (h : 128 ≤ n) : (n / 128).size + 7 = n.size := by
  have h1 : n.size ≤ (n / 128).size + 7 := by
    rw [Nat.size_le, pow_add]
    have := Nat.lt_size_self (n / 128)
    omega
  have h2 : 7 < n.size := Nat.lt_size.2 (by omega)
  have h3 : (n / 128).size ≤ n.size - 7 := by
    rw [Nat.size_le, Nat.div_lt_iff_lt_mul (by omega), show 128 = 2 ^ 7 by rfl, ← pow_add,
      show n.size - 7 + 7 = n.size by omega]
    exact Nat.lt_size_self n
  omega

/-- The bytes R101's loop makes of a value below 2^(7k) in `k` iterations: a varint, as short as can be (R110), whose
payloads are the value's 7-bit groups (R100). -/
theorem varintLoop_spec (k : Nat) (v : DWord) (h : v.toNat < 2 ^ (7 * (k + 1))) :
    (varintLoop (k + 1) v).length = max 1 ((v.toNat.size + 6) / 7) ∧
      ∀ i b, (varintLoop (k + 1) v)[i]? = some b →
        b.getLsbD 7 = decide (i + 1 < (varintLoop (k + 1) v).length) ∧
          b.toNat % 128 = v.toNat / 2 ^ (7 * i) % 128 := by
  induction k generalizing v with
  | zero =>
    have hv : v.toNat < 128 := by simpa using h
    have hlt : v < 0x80#64 := by simpa [BitVec.lt_def] using hv
    have hs : v.toNat.size ≤ 7 := Nat.size_le.2 (by omega)
    rw [varintLoop_succ, if_pos hlt]
    refine ⟨by simp; omega, ?_⟩
    intro i b hb
    obtain ⟨rfl, rfl⟩ : i = 0 ∧ v.extractLsb' 0 8 = b := by
      cases i <;> simp_all
    rw [byte_bit7, lastByte_toNat hlt]
    simp [hv]
  | succ k ih =>
    by_cases hlt : v < 0x80#64
    · have hv : v.toNat < 128 := by simpa [BitVec.lt_def] using hlt
      have hs : v.toNat.size ≤ 7 := Nat.size_le.2 (by omega)
      rw [varintLoop_succ, if_pos hlt]
      refine ⟨by simp; omega, ?_⟩
      intro i b hb
      obtain ⟨rfl, rfl⟩ : i = 0 ∧ v.extractLsb' 0 8 = b := by
        cases i <;> simp_all
      rw [byte_bit7, lastByte_toNat hlt]
      simp [hv]
    · have hv : 128 ≤ v.toNat := by simpa [BitVec.lt_def] using hlt
      have hn : (v >>> 7).toNat = v.toNat / 128 := by simp [Nat.shiftRight_eq_div_pow]
      have hr := ih (v >>> 7) (by
        rw [hn, Nat.div_lt_iff_lt_mul (by omega)]
        calc v.toNat < 2 ^ (7 * (k + 1 + 1)) := h
          _ = 2 ^ (7 * (k + 1)) * 128 := by rw [show 7 * (k + 1 + 1) = 7 * (k + 1) + 7 by omega, pow_add]; norm_num)
      have hsz := size_div_128 hv
      rw [hn] at hr
      obtain ⟨hl, hb⟩ := hr
      have h7 : 8 ≤ v.toNat.size := Nat.lt_size.2 (by omega)
      rw [varintLoop_succ, if_neg hlt]
      refine ⟨by rw [List.length_cons, hl]; omega, ?_⟩
      intro i b hi
      cases i with
      | zero =>
        obtain rfl : 0x80#8 ||| (v.extractLsb' 0 7).setWidth 8 = b := by simpa using hi
        rw [byte_bit7, moreByte_toNat]
        have : 0 < (varintLoop (k + 1) (v >>> 7)).length := by rw [hl]; omega
        simp [this]
      | succ i =>
        obtain ⟨h1, h2⟩ := hb i b (by simpa using hi)
        refine ⟨by simpa using h1, ?_⟩
        rw [h2, Nat.div_div_eq_div_mul, show 7 * (i + 1) = 7 + 7 * i by omega, pow_add]
        norm_num

/-- varint_bytes(v) (R101): one to ten bytes, as few as can be (R110), bit 7 set on all but the last, and payloads that are
the value's 7-bit groups (R100). -/
theorem varintBytes_spec (v : DWord) :
    (varintBytes v).length = max 1 ((v.toNat.size + 6) / 7) ∧ (varintBytes v).length ≤ 10 ∧
      ∀ i b, (varintBytes v)[i]? = some b →
        b.getLsbD 7 = decide (i + 1 < (varintBytes v).length) ∧ b.toNat % 128 = v.toNat / 2 ^ (7 * i) % 128 := by
  have h := varintLoop_spec 9 v (lt_of_lt_of_le v.isLt (by norm_num))
  have hs : v.toNat.size ≤ 64 := Nat.size_le.2 v.isLt
  refine ⟨h.1, ?_, h.2⟩
  show (varintLoop (9 + 1) v).length ≤ 10
  rw [h.1]
  omega

/-- A value has no bits past those its varint carries. -/
theorem lt_varintBytes_length (v : DWord) : v.toNat < 2 ^ (7 * (varintBytes v).length) := by
  rw [← Nat.size_le, (varintBytes_spec v).1]
  omega

/-- varint_bytes(v) is a varint. -/
theorem varintBytes_isVarint (v : DWord) : IsVarint (varintBytes v) where
  nonempty := by rw [(varintBytes_spec v).1]; omega
  short := (varintBytes_spec v).2.1
  continuation i b h := ((varintBytes_spec v).2.2 i b h).1

theorem getD_cons_succ (b : Byte) (bs : List Byte) (i : Nat) : (b :: bs)[i + 1]?.getD 0#8 = bs[i]?.getD 0#8 := by simp

/-- R103's sum, in Horner form and as the spec writes it. -/
theorem varintSum_eq_payloadSum (bs : List Byte) : varintSum bs = payloadSum bs := by
  induction bs with
  | nil => simp [varintSum, payloadSum]
  | cons b rest ih =>
    rw [varintSum, ih, payloadSum, payloadSum, List.length_cons, Finset.sum_range_succ', Finset.mul_sum]
    simp only [getD_cons_succ]
    rw [add_comm]
    congr 1
    · refine Finset.sum_congr rfl fun i _ => ?_
      rw [show 7 * (i + 1) = 7 + 7 * i by omega, pow_add]
      ring
    · simp [BitVec.extractLsb'_toNat]

/-- R64's sum, in Horner form and as the spec writes it. -/
theorem leSum_eq_byteSum (bs : List Byte) : leSum bs = byteSum bs := by
  induction bs with
  | nil => simp [leSum, byteSum]
  | cons b rest ih =>
    rw [leSum, ih, byteSum, byteSum, List.length_cons, Finset.sum_range_succ', Finset.mul_sum]
    simp only [getD_cons_succ]
    rw [add_comm]
    congr 1
    · refine Finset.sum_congr rfl fun i _ => ?_
      rw [show 8 * (i + 1) = 8 + 8 * i by omega, pow_add]
      ring
    · simp

/-- A sum of `n` 7-bit groups of a number is the number's low 7n bits. -/
theorem varintSum_eq_mod (bs : List Byte) (v : Nat)
    (h : ∀ i b, bs[i]? = some b → b.toNat % 128 = v / 2 ^ (7 * i) % 128) : varintSum bs = v % 2 ^ (7 * bs.length) := by
  induction bs generalizing v with
  | nil => simp [varintSum, Nat.mod_one]
  | cons b rest ih =>
    have h0 := h 0 b (by simp)
    have hr := ih (v / 128) fun i b hb => by
      rw [h (i + 1) b (by simpa using hb), Nat.div_div_eq_div_mul, show 7 * (i + 1) = 7 + 7 * i by omega, pow_add]
      norm_num
    rw [varintSum, hr, List.length_cons, show 7 * (rest.length + 1) = 7 + 7 * rest.length by omega, pow_add,
      Nat.mod_mul]
    simp [BitVec.extractLsb'_toNat] at h0 ⊢
    omega

/-- Decoding the bytes ENC_VARINT makes gives the value back (R112). -/
theorem varintValue_varintBytes (v : DWord) : varintValue (varintBytes v) = v := by
  have h := varintSum_eq_mod (varintBytes v) v.toNat fun i b hb => ((varintBytes_spec v).2.2 i b hb).2
  rw [Nat.mod_eq_of_lt (lt_varintBytes_length v)] at h
  simp [varintValue, h]

@[simp] theorem leBytes_length (n : Nat) {w : Nat} (v : BitVec w) : (leBytes n v).length = n := by simp [leBytes]

/-- Byte `i` of le_bytes_N(w) is w[8i+7 : 8i] (R64). -/
theorem leBytes_getElem? (n : Nat) {w : Nat} (v : BitVec w) (i : Nat) :
    (leBytes n v)[i]? = if i < n then some (v.extractLsb' (8 * i) 8) else none := by
  by_cases h : i < n <;> simp [leBytes, h]

/-- A sum of `n` bytes of a number is the number's low 8n bits. -/
theorem leSum_eq_mod (bs : List Byte) (v : Nat)
    (h : ∀ i b, bs[i]? = some b → b.toNat = v / 2 ^ (8 * i) % 256) : leSum bs = v % 2 ^ (8 * bs.length) := by
  induction bs generalizing v with
  | nil => simp [leSum, Nat.mod_one]
  | cons b rest ih =>
    have h0 := h 0 b (by simp)
    have hr := ih (v / 256) fun i b hb => by
      rw [h (i + 1) b (by simpa using hb), Nat.div_div_eq_div_mul, show 8 * (i + 1) = 8 + 8 * i by omega, pow_add]
      norm_num
    rw [leSum, hr, List.length_cons, show 8 * (rest.length + 1) = 8 + 8 * rest.length by omega, pow_add, Nat.mod_mul]
    simp at h0 ⊢
    omega

/-- le_word_N inverts le_bytes_N (R64). -/
theorem leWord_leBytes (n : Nat) (v : BitVec (8 * n)) : leWord (8 * n) (leBytes n v) = v := by
  have h := leSum_eq_mod (leBytes n v) v.toNat fun i b hb => by
    rw [leBytes_getElem?] at hb
    split at hb
    · cases hb
      simp [BitVec.extractLsb'_toNat, Nat.shiftRight_eq_div_pow]
    · cases hb
  rw [leBytes_length, Nat.mod_eq_of_lt v.isLt] at h
  simp [leWord, h]

end Sys2Proof.Machine
end

