-- ==== Sys2Proof/Laws/Memory.lean ====
section
/-! SUPPORT. The byte spaces: a read after a write, and every operation keeps the canonical form and the bound. -/

namespace Sys2Proof.Machine

@[simp] theorem Mem.read_nil (a : Nat) : Mem.read [] a = none := rfl

/-- A read after a write: the byte written, and every other byte as before. -/
theorem Mem.read_write (m : Mem) (a a' : Nat) (b : Byte) :
    Mem.read (Mem.write m a b) a' = if a' = a then some b else Mem.read m a' := by
  induction m with
  | nil => by_cases h : a = a' <;> simp [Mem.write, Mem.read, h, eq_comm]
  | cons c rest ih =>
    obtain ⟨k, x⟩ := c
    by_cases h1 : a < k
    · simp [Mem.write, Mem.read, h1, eq_comm]
    · by_cases h2 : a = k
      · subst h2
        by_cases h : a = a' <;> simp [Mem.write, Mem.read, h, eq_comm]
      · by_cases h : k = a'
        · subst h
          simp [Mem.write, Mem.read, h1, h2, Ne.symm h2]
        · simp [Mem.write, Mem.read, h1, h2, h, ih]

/-- A read after writing a list: its byte inside the list's span, and the byte of before elsewhere. -/
theorem Mem.read_writeList (m : Mem) (a a' : Nat) (bs : List Byte) :
    Mem.read (Mem.writeList m a bs) a' =
      if a ≤ a' ∧ a' < a + bs.length then bs[a' - a]? else Mem.read m a' := by
  induction bs generalizing m a with
  | nil => simp [Mem.writeList, show ¬(a ≤ a' ∧ a' < a) by omega]
  | cons b rest ih =>
    simp only [Mem.writeList, ih, Mem.read_write, List.length_cons]
    by_cases h : a' = a
    · subst h; simp
    · by_cases h2 : a + 1 ≤ a' ∧ a' < a + 1 + rest.length
      · obtain ⟨k, hk⟩ : ∃ k, a' - a = k + 1 := ⟨a' - a - 1, by omega⟩
        rw [if_pos h2, if_pos (by omega), hk, show a' - (a + 1) = k by omega]
        simp
      · rw [if_neg h2, if_neg h, if_neg (by omega)]

/-- A space made of a list holds exactly its bytes. -/
theorem Mem.read_ofListFrom (a a' : Nat) (bs : List Byte) :
    Mem.read (Mem.ofListFrom a bs) a' = if a ≤ a' then bs[a' - a]? else none := by
  induction bs generalizing a with
  | nil => simp [Mem.ofListFrom]
  | cons b rest ih =>
    simp only [Mem.ofListFrom, Mem.read, ih]
    by_cases h : a = a'
    · subst h; simp
    · by_cases h2 : a ≤ a'
      · obtain ⟨k, hk⟩ : ∃ k, a' - a = k + 1 := ⟨a' - a - 1, by omega⟩
        simp [h, h2, hk, show a + 1 ≤ a' by omega, show a' - (a + 1) = k by omega]
      · simp [h, h2, show ¬ a + 1 ≤ a' by omega]

@[simp] theorem Mem.read_ofListFrom_zero (a : Nat) (bs : List Byte) : Mem.read (Mem.ofListFrom 0 bs) a = bs[a]? := by
  simp [Mem.read_ofListFrom]

/-- The indexes after a write are the old ones and the one written. -/
theorem Mem.mem_write {m : Mem} {a : Nat} {b : Byte} {c : Host.Cell} (h : c ∈ Mem.write m a b) :
    c = (a, b) ∨ c ∈ m := by
  induction m with
  | nil => simpa [Mem.write] using h
  | cons d rest ih =>
    obtain ⟨k, x⟩ := d
    simp only [Mem.write] at h
    split at h
    · simpa using h
    · split at h
      · simp only [List.mem_cons] at h ⊢; tauto
      · simp only [List.mem_cons] at h ⊢
        rcases h with h | h
        · exact .inr (.inl h)
        · rcases ih h with h | h
          · exact .inl h
          · exact .inr (.inr h)

/-- A write keeps the canonical form. -/
theorem Mem.wf_write {m : Mem} (h : Mem.wf m) (a : Nat) (b : Byte) : Mem.wf (Mem.write m a b) := by
  induction m with
  | nil => simp [Mem.wf, Mem.write]
  | cons d rest ih =>
    obtain ⟨k, x⟩ := d
    have hk := (List.pairwise_cons.1 h).1
    have hr := (List.pairwise_cons.1 h).2
    simp only [Mem.write]
    split
    · rename_i h1
      refine List.pairwise_cons.2 ⟨?_, h⟩
      intro c hc
      rcases List.mem_cons.1 hc with rfl | hc
      · exact h1
      · exact lt_trans h1 (hk c hc)
    · split
      · rename_i h1 h2
        subst h2
        exact List.pairwise_cons.2 ⟨hk, hr⟩
      · rename_i h1 h2
        refine List.pairwise_cons.2 ⟨?_, ih hr⟩
        intro c hc
        rcases Mem.mem_write hc with rfl | hc
        · exact lt_of_le_of_ne (not_lt.1 h1) (Ne.symm h2)
        · exact hk c hc

/-- A write below a bound keeps every index below it. -/
theorem Mem.below_write {m : Mem} {n a : Nat} (h : Mem.below m n) (ha : a < n) (b : Byte) :
    Mem.below (Mem.write m a b) n := by
  intro c hc
  rcases Mem.mem_write hc with rfl | hc
  · exact ha
  · exact h c hc

/-- Writing a list keeps the canonical form. -/
theorem Mem.wf_writeList {m : Mem} (h : Mem.wf m) (a : Nat) (bs : List Byte) : Mem.wf (Mem.writeList m a bs) := by
  induction bs generalizing m a with
  | nil => exact h
  | cons b rest ih => exact ih (Mem.wf_write h a b) (a + 1)

/-- Writing a list below a bound keeps every index below it. -/
theorem Mem.below_writeList {m : Mem} {n a : Nat} (h : Mem.below m n) {bs : List Byte} (ha : a + bs.length ≤ n) :
    Mem.below (Mem.writeList m a bs) n := by
  induction bs generalizing m a with
  | nil => exact h
  | cons b rest ih =>
    simp only [List.length_cons] at ha
    exact ih (Mem.below_write h (by omega) b) (by omega)

/-- The indexes of a space made of a list. -/
theorem Mem.mem_ofListFrom {a : Nat} {bs : List Byte} {c : Host.Cell} (h : c ∈ Mem.ofListFrom a bs) :
    a ≤ c.1 ∧ c.1 < a + bs.length := by
  induction bs generalizing a with
  | nil => simp [Mem.ofListFrom] at h
  | cons b rest ih =>
    simp only [Mem.ofListFrom, List.mem_cons] at h
    simp only [List.length_cons]
    rcases h with rfl | h
    · simp
    · have := ih h; omega

/-- A space made of a list is in canonical form. -/
theorem Mem.wf_ofListFrom (a : Nat) (bs : List Byte) : Mem.wf (Mem.ofListFrom a bs) := by
  induction bs generalizing a with
  | nil => simp [Mem.wf, Mem.ofListFrom]
  | cons b rest ih =>
    refine List.pairwise_cons.2 ⟨?_, ih (a + 1)⟩
    intro c hc
    have := Mem.mem_ofListFrom hc
    show a < c.1
    omega

end Sys2Proof.Machine
end

