-- ==== Sys2Proof/Laws/State.lean ====
section
/-! SUPPORT. What each update of the state does to each field: one lemma per field per update, so that no later proof
unfolds a record update. -/

namespace Sys2Proof.Machine

@[simp] theorem Reg.holding_bits {w : Nat} (v : BitVec w) : (Reg.holding v).bits = v := rfl
@[simp] theorem Reg.holding_written {w : Nat} (v : BitVec w) : (Reg.holding v).written = true := rfl
@[simp] theorem Reg.unwritten_written (w : Nat) : (Reg.unwritten w).written = false := rfl

@[simp] theorem complete_eq_finish (r : Results) (s : State) : complete r s = finish .ok r s := rfl
@[simp] theorem raise_eq_finish (e : Status) (s : State) : raise e s = finish e {} s := rfl

section finish
variable (st : Status) (r : Results) (s : State)

@[simp] theorem finish_build : (finish st r s).build = s.build := rfl
@[simp] theorem finish_cmd : (finish st r s).cmd = s.cmd := rfl
@[simp] theorem finish_val : (finish st r s).val = s.val := rfl
@[simp] theorem finish_off : (finish st r s).off = s.off := rfl
@[simp] theorem finish_beginReg : (finish st r s).beginReg = s.beginReg := rfl
@[simp] theorem finish_endReg : (finish st r s).endReg = s.endReg := rfl
@[simp] theorem finish_ibufLen : (finish st r s).ibufLen = s.ibufLen := rfl
@[simp] theorem finish_ibuf : (finish st r s).ibuf = s.ibuf := rfl
@[simp] theorem finish_status : (finish st r s).status = ⟨st.code, true⟩ := rfl
@[simp] theorem finish_res : (finish st r s).res = r.res := rfl
@[simp] theorem finish_noff : (finish st r s).noff = r.noff := rfl
@[simp] theorem finish_olen : (finish st r s).olen = r.bytes.map fun bs => BitVec.ofNat 32 bs.length := rfl
@[simp] theorem finish_obuf : (finish st r s).obuf = Mem.ofListFrom 0 (r.bytes.getD []) := rfl
@[simp] theorem finish_len : (finish st r s).len = s.len := rfl
@[simp] theorem finish_sink : (finish st r s).sink = s.sink := rfl
@[simp] theorem finish_host : (finish st r s).host = s.host := rfl

end finish

section setCmd
variable (w : Word) (s : State)

@[simp] theorem setCmd_build : (setCmd w s).build = s.build := rfl
@[simp] theorem setCmd_cmd : (setCmd w s).cmd = { bits := w, written := true } := rfl
@[simp] theorem setCmd_val : (setCmd w s).val = s.val := rfl
@[simp] theorem setCmd_off : (setCmd w s).off = s.off := rfl
@[simp] theorem setCmd_beginReg : (setCmd w s).beginReg = s.beginReg := rfl
@[simp] theorem setCmd_endReg : (setCmd w s).endReg = s.endReg := rfl
@[simp] theorem setCmd_ibufLen : (setCmd w s).ibufLen = s.ibufLen := rfl
@[simp] theorem setCmd_ibuf : (setCmd w s).ibuf = s.ibuf := rfl
@[simp] theorem setCmd_status : (setCmd w s).status = s.status := rfl
@[simp] theorem setCmd_res : (setCmd w s).res = s.res := rfl
@[simp] theorem setCmd_noff : (setCmd w s).noff = s.noff := rfl
@[simp] theorem setCmd_olen : (setCmd w s).olen = s.olen := rfl
@[simp] theorem setCmd_obuf : (setCmd w s).obuf = s.obuf := rfl
@[simp] theorem setCmd_len : (setCmd w s).len = s.len := rfl
@[simp] theorem setCmd_sink : (setCmd w s).sink = s.sink := rfl
@[simp] theorem setCmd_host : (setCmd w s).host = s.host := rfl

end setCmd

section setLen
variable (n : Word) (s : State)

@[simp] theorem setLen_build : (setLen n s).build = s.build := rfl
@[simp] theorem setLen_cmd : (setLen n s).cmd = s.cmd := rfl
@[simp] theorem setLen_val : (setLen n s).val = s.val := rfl
@[simp] theorem setLen_off : (setLen n s).off = s.off := rfl
@[simp] theorem setLen_beginReg : (setLen n s).beginReg = s.beginReg := rfl
@[simp] theorem setLen_endReg : (setLen n s).endReg = s.endReg := rfl
@[simp] theorem setLen_ibufLen : (setLen n s).ibufLen = s.ibufLen := rfl
@[simp] theorem setLen_ibuf : (setLen n s).ibuf = s.ibuf := rfl
@[simp] theorem setLen_status : (setLen n s).status = s.status := rfl
@[simp] theorem setLen_res : (setLen n s).res = s.res := rfl
@[simp] theorem setLen_noff : (setLen n s).noff = s.noff := rfl
@[simp] theorem setLen_olen : (setLen n s).olen = s.olen := rfl
@[simp] theorem setLen_obuf : (setLen n s).obuf = s.obuf := rfl
@[simp] theorem setLen_len : (setLen n s).len = n := rfl
@[simp] theorem setLen_sink : (setLen n s).sink = s.sink := rfl
@[simp] theorem setLen_host : (setLen n s).host = s.host := rfl

end setLen

section writeSink
variable (a : Nat) (bs : List Byte) (s : State)

@[simp] theorem writeSink_build : (writeSink a bs s).build = s.build := rfl
@[simp] theorem writeSink_cmd : (writeSink a bs s).cmd = s.cmd := rfl
@[simp] theorem writeSink_val : (writeSink a bs s).val = s.val := rfl
@[simp] theorem writeSink_off : (writeSink a bs s).off = s.off := rfl
@[simp] theorem writeSink_beginReg : (writeSink a bs s).beginReg = s.beginReg := rfl
@[simp] theorem writeSink_endReg : (writeSink a bs s).endReg = s.endReg := rfl
@[simp] theorem writeSink_ibufLen : (writeSink a bs s).ibufLen = s.ibufLen := rfl
@[simp] theorem writeSink_ibuf : (writeSink a bs s).ibuf = s.ibuf := rfl
@[simp] theorem writeSink_status : (writeSink a bs s).status = s.status := rfl
@[simp] theorem writeSink_res : (writeSink a bs s).res = s.res := rfl
@[simp] theorem writeSink_noff : (writeSink a bs s).noff = s.noff := rfl
@[simp] theorem writeSink_olen : (writeSink a bs s).olen = s.olen := rfl
@[simp] theorem writeSink_obuf : (writeSink a bs s).obuf = s.obuf := rfl
@[simp] theorem writeSink_len : (writeSink a bs s).len = s.len := rfl
@[simp] theorem writeSink_sink : (writeSink a bs s).sink = Mem.writeList s.sink a bs := rfl
@[simp] theorem writeSink_host : (writeSink a bs s).host = s.host := rfl

end writeSink

section nextLine
variable (s : State)

@[simp] theorem nextLine_build : (nextLine s).build = s.build := rfl
@[simp] theorem nextLine_cmd : (nextLine s).cmd = s.cmd := rfl
@[simp] theorem nextLine_val : (nextLine s).val = s.val := rfl
@[simp] theorem nextLine_off : (nextLine s).off = s.off := rfl
@[simp] theorem nextLine_beginReg : (nextLine s).beginReg = s.beginReg := rfl
@[simp] theorem nextLine_endReg : (nextLine s).endReg = s.endReg := rfl
@[simp] theorem nextLine_ibufLen : (nextLine s).ibufLen = s.ibufLen := rfl
@[simp] theorem nextLine_ibuf : (nextLine s).ibuf = s.ibuf := rfl
@[simp] theorem nextLine_status : (nextLine s).status = s.status := rfl
@[simp] theorem nextLine_res : (nextLine s).res = s.res := rfl
@[simp] theorem nextLine_noff : (nextLine s).noff = s.noff := rfl
@[simp] theorem nextLine_olen : (nextLine s).olen = s.olen := rfl
@[simp] theorem nextLine_obuf : (nextLine s).obuf = s.obuf := rfl
@[simp] theorem nextLine_len : (nextLine s).len = s.len := rfl
@[simp] theorem nextLine_sink : (nextLine s).sink = s.sink := rfl
@[simp] theorem nextLine_host : (nextLine s).host = { s.host with pos := s.host.pos + 1 } := rfl

end nextLine

section setVar
variable (t : Nat) (v : Value) (s : State)

@[simp] theorem setVar_build : (setVar t v s).build = s.build := rfl
@[simp] theorem setVar_cmd : (setVar t v s).cmd = s.cmd := rfl
@[simp] theorem setVar_val : (setVar t v s).val = s.val := rfl
@[simp] theorem setVar_off : (setVar t v s).off = s.off := rfl
@[simp] theorem setVar_beginReg : (setVar t v s).beginReg = s.beginReg := rfl
@[simp] theorem setVar_endReg : (setVar t v s).endReg = s.endReg := rfl
@[simp] theorem setVar_ibufLen : (setVar t v s).ibufLen = s.ibufLen := rfl
@[simp] theorem setVar_ibuf : (setVar t v s).ibuf = s.ibuf := rfl
@[simp] theorem setVar_status : (setVar t v s).status = s.status := rfl
@[simp] theorem setVar_res : (setVar t v s).res = s.res := rfl
@[simp] theorem setVar_noff : (setVar t v s).noff = s.noff := rfl
@[simp] theorem setVar_olen : (setVar t v s).olen = s.olen := rfl
@[simp] theorem setVar_obuf : (setVar t v s).obuf = s.obuf := rfl
@[simp] theorem setVar_len : (setVar t v s).len = s.len := rfl
@[simp] theorem setVar_sink : (setVar t v s).sink = s.sink := rfl
@[simp] theorem setVar_host : (setVar t v s).host = { s.host with vars := updateVar s.host.vars t v } := rfl

end setVar

section reset
variable (s : State)

@[simp] theorem assertReset_build : (assertReset s).build = s.build := rfl
@[simp] theorem assertReset_host : (assertReset s).host = s.host := rfl
@[simp] theorem assertReset_len : (assertReset s).len = 0#32 := rfl
@[simp] theorem assertReset_status : (assertReset s).status = .unwritten 8 := rfl
@[simp] theorem assertReset_cmd : (assertReset s).cmd = .unwritten 32 := rfl
@[simp] theorem assertReset_ibuf : (assertReset s).ibuf = [] := rfl
@[simp] theorem assertReset_sink : (assertReset s).sink = [] := rfl
@[simp] theorem assertReset_obuf : (assertReset s).obuf = [] := rfl

end reset

section spaces
variable (s : State)

@[simp] theorem space_ibuf : s.space .ibuf = s.ibuf := rfl
@[simp] theorem space_sink : s.space .sink = s.sink := rfl
@[simp] theorem space_obuf : s.space .obuf = s.obuf := rfl
@[simp] theorem spaceSize_ibuf (b : Build) : spaceSize b .ibuf = b.ibufMax.toNat := rfl
@[simp] theorem spaceSize_sink (b : Build) : spaceSize b .sink = b.cap.toNat := rfl
@[simp] theorem spaceSize_obuf (b : Build) : spaceSize b .obuf = max 10 b.cap.toNat := rfl

end spaces

end Sys2Proof.Machine
end

