-- ==== Sys2Proof/Laws/Ops.lean ====
section
/-! SUPPORT. What the shared operations do: sequencing, and reading bytes. -/

namespace Sys2Proof.Machine

section andThen
variable {α β : Type}

@[simp] theorem andThen_next (a : α) (f : α → Host.Outcome β Fault Refusal) : andThen (.next a) f = f a := rfl

@[simp] theorem andThen_fault (e : Fault) (f : α → Host.Outcome β Fault Refusal) :
    andThen (.fault e : Host.Outcome α Fault Refusal) f = .fault e := rfl

@[simp] theorem andThen_refused (r : Refusal) (f : α → Host.Outcome β Fault Refusal) :
    andThen (.refused r : Host.Outcome α Fault Refusal) f = .refused r := rfl

/-- A sequence answers a result exactly when both parts do. -/
theorem andThen_eq_next {x : Host.Outcome α Fault Refusal} {f : α → Host.Outcome β Fault Refusal} {b : β} :
    andThen x f = .next b ↔ ∃ a, x = .next a ∧ f a = .next b := by
  cases x <;> simp

/-- A sequence faults when its first part does, or its second after the first. -/
theorem andThen_eq_fault {x : Host.Outcome α Fault Refusal} {f : α → Host.Outcome β Fault Refusal} {e : Fault} :
    andThen x f = .fault e ↔ x = .fault e ∨ ∃ a, x = .next a ∧ f a = .fault e := by
  cases x <;> simp

/-- A sequence is refused when its first part is, or its second after the first. -/
theorem andThen_eq_refused {x : Host.Outcome α Fault Refusal} {f : α → Host.Outcome β Fault Refusal} {r : Refusal} :
    andThen x f = .refused r ↔ x = .refused r ∨ ∃ a, x = .next a ∧ f a = .refused r := by
  cases x <;> simp

end andThen

@[simp] theorem readOperand_eq {w : Nat} (o : Reg w) : readOperand o = .next o.bits := rfl

/-- A byte read answers the byte exactly when the index is inside the space and holds it. -/
theorem readByte_eq_next {sp : Space} {a : Nat} {s : State} {b : Byte} :
    readByte sp a s = .next b ↔ a < spaceSize s.build sp ∧ Mem.read (s.space sp) a = some b := by
  unfold readByte
  split
  · rename_i h
    split <;> simp_all
  · simp_all

/-- A byte read faults by ⊥ or by an index outside the space (R46, R72), and in no other way. -/
theorem readByte_eq_fault {sp : Space} {a : Nat} {s : State} {e : Fault} (h : readByte sp a s = .fault e) :
    (e = .unwritten (.byte sp a) ∧ a < spaceSize s.build sp ∧ Mem.read (s.space sp) a = none) ∨
      (e = .outsideSpace sp a ∧ spaceSize s.build sp ≤ a) := by
  unfold readByte at h
  split at h
  · rename_i ha
    split at h
    · cases h
    · rename_i hm
      cases h
      exact .inl ⟨rfl, ha, hm⟩
  · rename_i ha
    cases h
    exact .inr ⟨rfl, not_lt.1 ha⟩

/-- A byte read of ⊥ inside the space is R46's model fault. -/
theorem readByte_bottom {sp : Space} {a : Nat} {s : State} (ha : a < spaceSize s.build sp)
    (h : Mem.read (s.space sp) a = none) : readByte sp a s = .fault (.unwritten (.byte sp a)) := by
  simp [readByte, ha, h]

theorem readByte_ne_refused {sp : Space} {a : Nat} {s : State} {r : Refusal} : readByte sp a s ≠ .refused r := by
  unfold readByte
  split
  · split <;> simp
  · simp

/-- `readBytes` answers exactly the bytes the space holds there. -/
theorem readBytes_eq_next {sp : Space} {s : State} {a n : Nat} {bs : List Byte} :
    readBytes sp s a n = .next bs ↔
      bs.length = n ∧ ∀ i b, bs[i]? = some b →
        a + i < spaceSize s.build sp ∧ Mem.read (s.space sp) (a + i) = some b := by
  induction n generalizing a bs with
  | zero =>
    simp only [readBytes, Host.Outcome.next.injEq]
    constructor
    · rintro rfl; simp
    · rintro ⟨h, -⟩; exact (List.length_eq_zero_iff.1 h).symm
  | succ n ih =>
    simp only [readBytes, andThen_eq_next, readByte_eq_next, ih, Host.Outcome.next.injEq]
    constructor
    · rintro ⟨b, ⟨h1, h2⟩, rest, ⟨h3, h4⟩, rfl⟩
      refine ⟨by simp [h3], ?_⟩
      intro i b' hi
      cases i with
      | zero => simp at hi; subst hi; exact ⟨h1, h2⟩
      | succ i =>
        have := h4 i b' (by simpa using hi)
        rwa [show a + 1 + i = a + (i + 1) by omega] at this
    · rintro ⟨h1, h2⟩
      cases bs with
      | nil => simp at h1
      | cons b rest =>
        refine ⟨b, by simpa using h2 0 b (by simp), rest, ⟨by simpa using h1, ?_⟩, rfl⟩
        intro i b' hi
        have := h2 (i + 1) b' (by simpa using hi)
        rwa [show a + (i + 1) = a + 1 + i by omega] at this

/-- `readBytes` faults only where one of its byte reads does, the ones below it having answered. -/
theorem readBytes_eq_fault {sp : Space} {s : State} {a n : Nat} {e : Fault} (h : readBytes sp s a n = .fault e) :
    ∃ k, k < n ∧ readByte sp (a + k) s = .fault e := by
  induction n generalizing a with
  | zero => simp [readBytes] at h
  | succ n ih =>
    simp only [readBytes, andThen_eq_fault] at h
    rcases h with h | ⟨b, -, h | ⟨bs, -, h⟩⟩
    · exact ⟨0, by omega, by simpa using h⟩
    · obtain ⟨k, hk, h⟩ := ih h
      exact ⟨k + 1, by omega, by rwa [show a + (k + 1) = a + 1 + k by omega]⟩
    · cases h

theorem readBytes_ne_refused {sp : Space} {s : State} {a n : Nat} {r : Refusal} :
    readBytes sp s a n ≠ .refused r := by
  induction n generalizing a with
  | zero => simp [readBytes]
  | succ n ih =>
    simp only [readBytes, ne_eq, andThen_eq_refused, not_or, not_exists, not_and]
    exact ⟨readByte_ne_refused, fun b _ => ⟨ih, fun bs _ h => by cases h⟩⟩

/-- A byte read sees only the build and the space. -/
theorem readByte_congr {sp : Space} {s t : State} (hb : t.build = s.build) (hm : t.space sp = s.space sp) (a : Nat) :
    readByte sp a t = readByte sp a s := by
  simp [readByte, hb, hm]

/-- `readBytes` sees only the build and the space. -/
theorem readBytes_congr {sp : Space} {s t : State} (hb : t.build = s.build) (hm : t.space sp = s.space sp)
    (a n : Nat) : readBytes sp t a n = readBytes sp s a n := by
  induction n generalizing a with
  | zero => rfl
  | succ n ih => simp [readBytes, readByte_congr hb hm, ih]

end Sys2Proof.Machine
end

