-- ==== Sys2Proof/Laws/Scan.lean ====
section
/-! SUPPORT. The varint scan (R102): what each of its answers says about the bytes, and when it gives them. -/

namespace Sys2Proof.Machine

/-- The scan passes over index `m`: the byte is read and has its continuation bit set. -/
def Passes (s : State) (off m : Nat) : Prop := ∃ b, readByte .ibuf (off + m) s = .next b ∧ b.getLsbD 7 = true

/-- The scan ends at index `m`: the byte is read and has its continuation bit clear. -/
def Stops (s : State) (off m : Nat) : Prop := ∃ b, readByte .ibuf (off + m) s = .next b ∧ b.getLsbD 7 = false

variable {s : State} {off rem k i : Nat}

theorem Passes.not_stops {m : Nat} (h : Passes s off m) : ¬ Stops s off m := by
  rintro ⟨b, h1, h2⟩
  obtain ⟨b', h3, h4⟩ := h
  rw [h1] at h3
  cases h3
  rw [h2] at h4
  cases h4

/-- The loop at an index inside the buffer, by what the byte there is. -/
theorem scanLoop_succ_passes (hi : i < rem) (h : Passes s off i) :
    scanLoop s off rem (k + 1) i = scanLoop s off rem k (i + 1) := by
  obtain ⟨b, h1, h2⟩ := h
  rw [scanLoop, if_neg (not_le.2 hi), h1, andThen_next, if_neg (by rw [h2]; decide)]

theorem scanLoop_succ_stops (hi : i < rem) (h : Stops s off i) :
    scanLoop s off rem (k + 1) i = .next (some (i + 1)) := by
  obtain ⟨b, h1, h2⟩ := h
  rw [scanLoop, if_neg (not_le.2 hi), h1, andThen_next, if_pos h2]

theorem scanLoop_succ_fault (hi : i < rem) {e : Fault} (h : readByte .ibuf (off + i) s = .fault e) :
    scanLoop s off rem (k + 1) i = .fault e := by
  simp [scanLoop, not_le.2 hi, h]

theorem scanLoop_succ_end (hi : rem ≤ i) : scanLoop s off rem (k + 1) i = .next none := by
  simp [scanLoop, hi]

/-- Each index inside the buffer is passed, stops the scan, or faults it. -/
theorem passes_or_stops_or_fault (s : State) (off m : Nat) :
    Passes s off m ∨ Stops s off m ∨ ∃ e, readByte .ibuf (off + m) s = .fault e := by
  cases h : readByte .ibuf (off + m) s with
  | next b =>
    cases hb : b.getLsbD 7
    · exact .inr (.inl ⟨b, h, hb⟩)
    · exact .inl ⟨b, h, hb⟩
  | fault e => exact .inr (.inr ⟨e, rfl⟩)
  | refused r => exact absurd h readByte_ne_refused

/-- The scan skips indexes that pass. -/
theorem scanLoop_skip {j : Nat} (hij : i ≤ j) (hjk : j ≤ i + k) (hj : j ≤ rem)
    (hp : ∀ m, i ≤ m → m < j → Passes s off m) :
    scanLoop s off rem k i = scanLoop s off rem (i + k - j) j := by
  induction k generalizing i with
  | zero => rw [show j = i by omega, show i + 0 - i = 0 by omega]
  | succ k ih =>
    rcases eq_or_lt_of_le hij with rfl | hlt
    · rw [show i + (k + 1) - i = k + 1 by omega]
    · rw [scanLoop_succ_passes (by omega) (hp i le_rfl hlt),
        ih (by omega) (by omega) fun m h1 h2 => hp m (by omega) h2]
      congr 1
      omega

/-- The scan finds a terminating byte. -/
theorem scanLoop_found {j : Nat} (hij : i ≤ j) (hjk : j < i + k) (hj : j < rem)
    (hp : ∀ m, i ≤ m → m < j → Passes s off m) (hs : Stops s off j) :
    scanLoop s off rem k i = .next (some (j + 1)) := by
  rw [scanLoop_skip hij hjk.le hj.le hp, show i + k - j = (i + k - j - 1) + 1 by omega,
    scanLoop_succ_stops hj hs]

/-- The scan reads a byte that faults. -/
theorem scanLoop_fault {j : Nat} (hij : i ≤ j) (hjk : j < i + k) (hj : j < rem)
    (hp : ∀ m, i ≤ m → m < j → Passes s off m) {e : Fault} (hs : readByte .ibuf (off + j) s = .fault e) :
    scanLoop s off rem k i = .fault e := by
  rw [scanLoop_skip hij hjk.le hj.le hp, show i + k - j = (i + k - j - 1) + 1 by omega,
    scanLoop_succ_fault hj hs]

/-- The scan finds no terminating byte (R181). -/
theorem scanLoop_none (hp : ∀ m, i ≤ m → m < i + k → m < rem → Passes s off m) :
    scanLoop s off rem k i = .next none := by
  induction k generalizing i with
  | zero => rfl
  | succ k ih =>
    by_cases hi : i < rem
    · rw [scanLoop_succ_passes hi (hp i le_rfl (by omega) hi)]
      exact ih fun m h1 h2 h3 => hp m (by omega) (by omega) h3
    · exact scanLoop_succ_end (by omega)

/-- Every answer of the scan says what the bytes are. -/
theorem scanLoop_cases (s : State) (off rem k i : Nat) :
    (∃ j, i ≤ j ∧ j < i + k ∧ j < rem ∧ (∀ m, i ≤ m → m < j → Passes s off m) ∧ Stops s off j ∧
        scanLoop s off rem k i = .next (some (j + 1))) ∨
      ((∀ m, i ≤ m → m < i + k → m < rem → Passes s off m) ∧ scanLoop s off rem k i = .next none) ∨
      ∃ j e, i ≤ j ∧ j < i + k ∧ j < rem ∧ (∀ m, i ≤ m → m < j → Passes s off m) ∧
        readByte .ibuf (off + j) s = .fault e ∧ scanLoop s off rem k i = .fault e := by
  induction k generalizing i with
  | zero => exact .inr (.inl ⟨fun m _ _ _ => by omega, rfl⟩)
  | succ k ih =>
    by_cases hi : i < rem
    · rcases passes_or_stops_or_fault s off i with h | h | ⟨e, h⟩
      · have step : ∀ j, (∀ m, i + 1 ≤ m → m < j → Passes s off m) → ∀ m, i ≤ m → m < j → Passes s off m := by
          intro j hp m h1 h2
          rcases eq_or_lt_of_le h1 with rfl | h1
          · exact h
          · exact hp m h1 h2
        rw [scanLoop_succ_passes hi h]
        rcases ih (i + 1) with ⟨j, h1, h2, h3, h4, h5⟩ | ⟨h4, h5⟩ | ⟨j, e, h1, h2, h3, h4, h5⟩
        · exact .inl ⟨j, by omega, by omega, h3, step j h4, h5⟩
        · refine .inr (.inl ⟨fun m h1 h2 h3 => ?_, h5⟩)
          rcases eq_or_lt_of_le h1 with rfl | h1
          · exact h
          · exact h4 m h1 (by omega) h3
        · exact .inr (.inr ⟨j, e, by omega, by omega, h3, step j h4, h5⟩)
      · exact .inl ⟨i, le_rfl, by omega, hi, fun m h1 h2 => by omega, h, scanLoop_succ_stops hi h⟩
      · exact .inr (.inr ⟨i, e, le_rfl, by omega, hi, fun m h1 h2 => by omega, h, scanLoop_succ_fault hi h⟩)
    · exact .inr (.inl ⟨fun m h1 _ h3 => by omega, scanLoop_succ_end (by omega)⟩)

/-- The scan sees only the build and IBUF. -/
theorem scanLoop_congr {s t : State} (hb : t.build = s.build) (hm : t.ibuf = s.ibuf) (off rem k i : Nat) :
    scanLoop t off rem k i = scanLoop s off rem k i := by
  induction k generalizing i with
  | zero => rfl
  | succ k ih => simp [scanLoop, readByte_congr (sp := .ibuf) hb hm, ih]

end Sys2Proof.Machine
end

