-- ==== Sys2Proof/Laws/Zigzag.lean ====
section
/-! SUPPORT. The zigzag mapping in closed form (R135), and that it is a bijection (R134). -/

namespace Sys2Proof.Machine

variable {w : Nat}

/-- The arithmetic shift by the width less one copies the sign everywhere (R130, R132). -/
theorem sshiftRight_all (n : BitVec (w + 1)) :
    n.sshiftRight w = if n.msb then BitVec.allOnes (w + 1) else 0#(w + 1) := by
  ext i hi
  rw [BitVec.getElem_sshiftRight]
  by_cases h : w + i < w + 1
  · obtain rfl : i = 0 := by omega
    cases hm : n.msb <;> simp [BitVec.msb_eq_getLsbD_last, BitVec.getLsbD_eq_getElem] at hm ⊢ <;> simp [hm]
  · cases hm : n.msb <;> simp [h]

/-- A negative number's zigzag is the complement of its double. -/
theorem zigzag_eq (n : BitVec (w + 1)) : zigzag n = if n.msb then ~~~(n <<< 1) else n <<< 1 := by
  rw [zigzag, Nat.add_sub_cancel, sshiftRight_all]
  cases n.msb <;> simp

/-- R135: zigzag(n) = 2n for n >= 0 and -2n - 1 for n < 0. -/
theorem zigzag_toNat (n : BitVec (w + 1)) :
    ((zigzag n).toNat : Int) = if 0 ≤ n.toInt then 2 * n.toInt else -2 * n.toInt - 1 := by
  have hlt := n.isLt
  have hp : (2 : Nat) ^ (w + 1) = 2 * 2 ^ w := by rw [pow_succ]; ring
  rw [zigzag_eq, BitVec.toInt_eq_msb_cond]
  cases hm : n.msb
  · have h : n.toNat < 2 ^ w := by simpa [BitVec.msb_eq_decide] using hm
    have h2 : (n <<< 1).toNat = 2 * n.toNat := by
      rw [BitVec.toNat_shiftLeft, Nat.shiftLeft_eq, Nat.mod_eq_of_lt (by omega)]; ring
    simp [h2]
  · have h : 2 ^ w ≤ n.toNat := by simpa [BitVec.msb_eq_decide] using hm
    have h2 : (n <<< 1).toNat = 2 * n.toNat - 2 ^ (w + 1) := by
      rw [BitVec.toNat_shiftLeft, Nat.shiftLeft_eq, show n.toNat * 2 ^ 1 = 2 * n.toNat - 2 ^ (w + 1) + 2 ^ (w + 1) by omega,
        Nat.add_mod_right, Nat.mod_eq_of_lt (by omega)]
    simp only [if_true, BitVec.toNat_not, h2, hp] at hlt ⊢
    generalize 2 ^ w = p at *
    rw [if_neg (by omega)]
    omega

/-- R135: unzigzag(z) = z / 2 for even z and -(z + 1) / 2 for odd z. -/
theorem unzigzag_toInt (z : BitVec (w + 1)) :
    (unzigzag z).toInt = if z.toNat % 2 = 0 then (z.toNat : Int) / 2 else -((z.toNat : Int) + 1) / 2 := by
  have hlt := z.isLt
  have hp : (2 : Nat) ^ (w + 1) = 2 * 2 ^ w := by rw [pow_succ]; ring
  have hs : (z >>> 1).toNat = z.toNat / 2 := by simp [Nat.shiftRight_eq_div_pow]
  have hand : z &&& 1#(w + 1) = if z.toNat % 2 = 0 then 0#(w + 1) else 1#(w + 1) := by
    apply BitVec.eq_of_toNat_eq
    rw [BitVec.toNat_and, BitVec.toNat_ofNat, Nat.one_mod_two_pow (by omega), Nat.and_one_is_mod]
    split
    · simp [*]
    · rw [BitVec.toNat_ofNat, Nat.one_mod_two_pow (by omega)]; omega
  rw [unzigzag, hand]
  split
  · rename_i h
    simp only [BitVec.neg_zero, BitVec.xor_zero]
    rw [BitVec.toInt_eq_toNat_cond, hs, if_pos (by omega)]
    omega
  · rename_i h
    rw [BitVec.neg_one_eq_allOnes, BitVec.xor_allOnes, BitVec.toInt_eq_toNat_cond, BitVec.toNat_not, hs,
      if_neg (by omega)]
    simp only [hp] at hlt ⊢
    generalize 2 ^ w = p at *
    omega

/-- R134: decoding inverts encoding. -/
theorem unzigzag_zigzag (n : BitVec (w + 1)) : unzigzag (zigzag n) = n := by
  apply BitVec.eq_of_toInt_eq
  have h := zigzag_toNat n
  rw [unzigzag_toInt]
  split at h <;> split <;> omega

end Sys2Proof.Machine
end

