-- ==== Sys2Proof/Laws/Exec.lean ====
section
/-! SUPPORT. Everything a command can do: how it ends if it answers, when it faults, and that it is never refused. -/

namespace Sys2Proof.Machine

open Sys2Proof.Safety

/-- What a successful command's results look like: exactly the registers of R48, and bytes that fit OBUF. -/
structure Fits (i : Instr) (s : State) (r : Results) : Prop where
  res : r.res.isSome = (resultsOf i).contains .res
  noff : r.noff.isSome = (resultsOf i).contains .noff
  bytes : r.bytes.isSome = (resultsOf i).contains .olen
  size : ∀ bs, r.bytes = some bs → bs.length ≤ 10 ∨ bs.length ≤ s.len.toNat

/-- The ways a command ends (R17, R186): an error, its results, an append, or a clear. -/
inductive Ends (i : Instr) (s : State) : State → Prop where
  | error (st : Status) (h : st ≠ .ok) : Ends i s (finish st {} s)
  | results (r : Results) (h : Fits i s r) : Ends i s (finish .ok r s)
  | append (bs : List Byte) (hi : i = .sinkAppend) (hn : bs.length = s.ibufLen.bits.toNat)
      (hc : s.len.toNat + s.ibufLen.bits.toNat ≤ s.build.cap.toNat) (hb : BytesAt s.ibuf 0 bs) :
      Ends i s (finish .ok {} (setLen (s.len + s.ibufLen.bits) (writeSink s.len.toNat bs s)))
  | clear (hi : i = .sinkClear) : Ends i s (finish .ok {} (setLen 0#32 s))

/-- `finish` leaves alone everything but the result registers, which it ends as its arguments say (R44, R63). -/
theorem ended_finish (st : Status) (r : Results) (s : State) :
    Ended s (finish st r s) st.code r.res r.noff r.bytes where
  frame := ⟨rfl, rfl, rfl, rfl, rfl, rfl, rfl, rfl, rfl⟩
  status := rfl
  res := rfl
  noff := rfl
  bytes := by cases h : r.bytes <;> simp [HoldsBytes, h, Mem.ofListFrom]

theorem sinkFrame_finish (st : Status) (r : Results) (s : State) : SinkFrame s (finish st r s) := ⟨rfl, rfl⟩

/-- `finish` after a change of the sink alone. -/
theorem ended_finish_of_frame {s m : State} (h : CommandFrame s m) (st : Status) (r : Results) :
    Ended s (finish st r m) st.code r.res r.noff r.bytes where
  frame := ⟨h.build, h.cmd, h.val, h.off, h.beginReg, h.endReg, h.ibufLen, h.ibuf, h.host⟩
  status := rfl
  res := rfl
  noff := rfl
  bytes := (ended_finish st r m).bytes

/-- A command sees only the build, the operand registers, IBUF, LEN and SINK, and overwrites every result (R44, R205). -/
theorem finish_congr {s t : State} (h : CommandFrame s t) (hs : SinkFrame s t) (st : Status) (r : Results) :
    finish st r t = finish st r s := by
  obtain ⟨h1, h2, h3, h4, h5, h6, h7, h8, h9⟩ := h
  obtain ⟨h10, h11⟩ := hs
  cases s
  cases t
  simp only at h1 h2 h3 h4 h5 h6 h7 h8 h9 h10 h11
  subst h1 h2 h3 h4 h5 h6 h7 h8 h9 h10 h11
  rfl

/-- What the scan's callers can answer (R102, R115): a malformed varint, or what `found` answers for the varint's length. -/
theorem scanBody_cases (s : State) (found : Word → Nat → Host.Outcome State Fault Refusal) :
    (∃ n, 1 ≤ n ∧ n ≤ 10 ∧ s.off.bits.toNat + n ≤ s.ibufLen.bits.toNat ∧
        (∀ m, m + 1 < n → Passes s s.off.bits.toNat m) ∧ Stops s s.off.bits.toNat (n - 1) ∧
        scanBody s found = found s.off.bits n) ∨
      ((∀ m, m < 10 → s.off.bits.toNat + m < s.ibufLen.bits.toNat → Passes s s.off.bits.toNat m) ∧
        scanBody s found = .next (raise .malformedVarint s)) ∨
      ∃ j e, j < 10 ∧ s.off.bits.toNat + j < s.ibufLen.bits.toNat ∧
        (∀ m, m < j → Passes s s.off.bits.toNat m) ∧
        readByte .ibuf (s.off.bits.toNat + j) s = .fault e ∧ scanBody s found = .fault e := by
  have hb : scanBody s found = andThen (scanLoop s s.off.bits.toNat (remaining s.off.bits s.ibufLen.bits) 10 0) fun r =>
      match r with
      | none => .next (raise .malformedVarint s)
      | some n => found s.off.bits n := rfl
  rw [hb]
  rcases scanLoop_cases s s.off.bits.toNat (remaining s.off.bits s.ibufLen.bits) 10 0 with
    ⟨j, h1, h2, h3, h4, h5, h6⟩ | ⟨h4, h6⟩ | ⟨j, e, h1, h2, h3, h4, h5, h6⟩ <;> rw [h6]
  · unfold remaining at h3
    exact .inl ⟨j + 1, by omega, by omega, by omega, fun m hm => h4 m (by omega) (by omega), by simpa using h5, rfl⟩
  · exact .inr (.inl ⟨fun m h1 h2 => h4 m (by omega) (by omega) (by unfold remaining; omega), rfl⟩)
  · unfold remaining at h3
    exact .inr (.inr ⟨j, e, by omega, by omega, fun m hm => h4 m (by omega) hm, h5, rfl⟩)

/-- A command that scans ends as its `found` does, or with an error. -/
theorem scanBody_ends {i : Instr} {s t : State} {found : Word → Nat → Host.Outcome State Fault Refusal}
    (hf : ∀ off n, n ≤ 10 → found off n = .next t → Ends i s t) (h : scanBody s found = .next t) : Ends i s t := by
  rcases scanBody_cases s found with ⟨n, -, hn, -, -, -, h'⟩ | ⟨-, h'⟩ | ⟨j, e, -, -, -, -, h'⟩ <;> rw [h'] at h
  · exact hf _ _ hn h
  · cases h
    exact .error .malformedVarint (by decide)
  · cases h

theorem pack_length_le (k : Kind) (v : DWord) : (k.pack v).length ≤ 8 := by cases k <;> simp [Kind.pack]

/-- Everything a command that answers can have done. -/
theorem exec_ends {i : Instr} {s t : State} (h : exec i s = .next t) : Ends i s t := by
  cases i
  case encVarint =>
    cases h
    exact .results { bytes := some _ } ⟨rfl, rfl, rfl, by rintro bs ⟨⟩; exact .inl (varintBytes_spec _).2.1⟩
  case encSvarint =>
    cases h
    exact .results { bytes := some _ } ⟨rfl, rfl, rfl, by rintro bs ⟨⟩; exact .inl (varintBytes_spec _).2.1⟩
  case decLen =>
    simp only [exec, execDecLen] at h
    refine scanBody_ends (fun off n _ h => ?_) h
    cases h
    exact .results { res := some _ } ⟨rfl, rfl, rfl, by rintro bs ⟨⟩⟩
  case decVarint =>
    refine scanBody_ends (fun off n _ h => ?_) h
    obtain ⟨bs, -, h⟩ := andThen_eq_next.1 h
    cases h
    exact .results { res := some _, noff := some _ } ⟨rfl, rfl, rfl, by rintro bs ⟨⟩⟩
  case decSvarint =>
    refine scanBody_ends (fun off n _ h => ?_) h
    obtain ⟨bs, -, h⟩ := andThen_eq_next.1 h
    cases h
    exact .results { res := some _, noff := some _ } ⟨rfl, rfl, rfl, by rintro bs ⟨⟩⟩
  case rawToken =>
    simp only [exec, execRawToken] at h
    refine scanBody_ends (fun off n hn h => ?_) h
    obtain ⟨bs, hb, h⟩ := andThen_eq_next.1 h
    cases h
    refine .results { noff := some _, bytes := some bs } ⟨rfl, rfl, rfl, ?_⟩
    rintro bs ⟨⟩
    exact .inl ((readBytes_eq_next.1 hb).1 ▸ hn)
  case sinkAppend =>
    simp only [exec, execSinkAppend] at h
    obtain ⟨n, hn, h⟩ := andThen_eq_next.1 h
    cases hn
    split at h
    · cases h
      exact .error .capacityExceeded (by decide)
    · rename_i hc
      obtain ⟨bs, hb, h⟩ := andThen_eq_next.1 h
      cases h
      have hb := readBytes_eq_next.1 hb
      exact .append bs rfl hb.1 (by omega) fun j b hj => (hb.2 j b hj).2
  case sinkLen =>
    cases h
    exact .results { res := some _ } ⟨rfl, rfl, rfl, by rintro bs ⟨⟩⟩
  case sinkBytes =>
    obtain ⟨bs, hb, h⟩ := andThen_eq_next.1 h
    cases h
    refine .results { bytes := some bs } ⟨rfl, rfl, rfl, ?_⟩
    rintro bs ⟨⟩
    exact .inr (readBytes_eq_next.1 hb).1.le
  case sinkSlice =>
    simp only [exec, execSinkSlice] at h
    obtain ⟨b, hb, h⟩ := andThen_eq_next.1 h
    obtain ⟨e, he, h⟩ := andThen_eq_next.1 h
    cases hb
    cases he
    split at h
    · cases h
      exact .error .outOfRange (by decide)
    · rename_i hc
      obtain ⟨bs, hb, h⟩ := andThen_eq_next.1 h
      cases h
      refine .results { bytes := some bs } ⟨rfl, rfl, rfl, ?_⟩
      rintro bs ⟨⟩
      have := (readBytes_eq_next.1 hb).1
      exact .inr (by omega)
  case sinkClear =>
    cases h
    exact .clear rfl
  case zzEnc32 | zzDec32 | zzEnc64 | zzDec64 =>
    all_goals
      cases h
      exact .results { res := some _ } ⟨rfl, rfl, rfl, by rintro bs ⟨⟩⟩
  case packInt32 | packUint32 | packFloat32 | packInt64 | packUint64 | packFloat64 =>
    all_goals
      cases h
      exact .results { bytes := some _ }
        ⟨rfl, rfl, rfl, by rintro bs ⟨⟩; exact .inl ((pack_length_le _ _).trans (by decide))⟩
  case unpackInt32 | unpackUint32 | unpackFloat32 | unpackInt64 | unpackUint64 | unpackFloat64 =>
    all_goals
      obtain ⟨bs, -, h⟩ := andThen_eq_next.1 h
      cases h
      exact .results { res := some _ } ⟨rfl, rfl, rfl, by rintro bs ⟨⟩⟩

/-- A command faults only by a byte read: R46's fault on ⊥, or an index outside its space (R199). -/
theorem exec_fault {i : Instr} {s : State} {e : Fault} (h : exec i s = .fault e) :
    ∃ sp a, readByte sp a s = .fault e := by
  have scan : ∀ found : Word → Nat → Host.Outcome State Fault Refusal,
      (∀ off n, found off n = .fault e → ∃ sp a, readByte sp a s = .fault e) → scanBody s found = .fault e →
        ∃ sp a, readByte sp a s = .fault e := by
    intro found hf h
    rcases scanBody_cases s found with ⟨n, -, -, -, -, -, h'⟩ | ⟨-, h'⟩ | ⟨j, e', -, -, -, hr, h'⟩ <;> rw [h'] at h
    · exact hf _ _ h
    · cases h
    · cases h
      exact ⟨_, _, hr⟩
  have bytes : ∀ sp a n (f : List Byte → Host.Outcome State Fault Refusal), (∀ bs, f bs ≠ .fault e) →
      andThen (readBytes sp s a n) f = .fault e → ∃ sp a, readByte sp a s = .fault e := by
    intro sp a n f hf h
    rcases andThen_eq_fault.1 h with h | ⟨bs, -, h⟩
    · obtain ⟨k, -, h⟩ := readBytes_eq_fault h
      exact ⟨_, _, h⟩
    · exact absurd h (hf bs)
  cases i
  case decLen =>
    simp only [exec, execDecLen] at h
    exact scan _ (fun off n h => by cases h) h
  case decVarint | decSvarint | rawToken =>
    all_goals
      simp only [exec, execDecVarint, execDecSvarint, execRawToken] at h
      exact scan _ (fun off n h => bytes _ _ _ _ (fun bs h => by cases h) h) h
  case unpackInt32 | unpackUint32 | unpackFloat32 | unpackInt64 | unpackUint64 | unpackFloat64 =>
    all_goals exact bytes _ _ _ _ (fun bs h => by cases h) h
  case sinkBytes => exact bytes _ _ _ _ (fun bs h => by cases h) h
  case sinkAppend =>
    simp only [exec, execSinkAppend, readIbufLen, readOperand_eq, andThen_next] at h
    split at h
    · cases h
    · exact bytes _ _ _ _ (fun bs h => by cases h) h
  case sinkSlice =>
    simp only [exec, execSinkSlice, readBegin, readEnd, readOperand_eq, andThen_next] at h
    split at h
    · cases h
    · exact bytes _ _ _ _ (fun bs h => by cases h) h
  all_goals cases h

/-- No command is refused (R199). -/
theorem exec_ne_refused (i : Instr) (s : State) (r : Refusal) : exec i s ≠ .refused r := by
  have bytes : ∀ sp a n (f : List Byte → Host.Outcome State Fault Refusal), (∀ bs, f bs ≠ .refused r) →
      andThen (readBytes sp s a n) f ≠ .refused r := by
    intro sp a n f hf h
    rcases andThen_eq_refused.1 h with h | ⟨bs, -, h⟩
    · exact readBytes_ne_refused h
    · exact hf bs h
  have scan : ∀ found : Word → Nat → Host.Outcome State Fault Refusal,
      (∀ off n, found off n ≠ .refused r) → scanBody s found ≠ .refused r := by
    intro found hf h
    rcases scanBody_cases s found with ⟨n, -, -, -, -, -, h'⟩ | ⟨-, h'⟩ | ⟨j, e', -, -, -, -, h'⟩ <;> rw [h'] at h
    · exact hf _ _ h
    · cases h
    · cases h
  cases i
  case decLen =>
    simp only [exec, execDecLen]
    exact scan _ fun off n h => by cases h
  case decVarint | decSvarint | rawToken =>
    all_goals
      simp only [exec, execDecVarint, execDecSvarint, execRawToken]
      exact scan _ fun off n => bytes _ _ _ _ fun bs h => by cases h
  case unpackInt32 | unpackUint32 | unpackFloat32 | unpackInt64 | unpackUint64 | unpackFloat64 =>
    all_goals exact bytes _ _ _ _ fun bs h => by cases h
  case sinkBytes => exact bytes _ _ _ _ fun bs h => by cases h
  case sinkAppend =>
    simp only [exec, execSinkAppend, readIbufLen, readOperand_eq, andThen_next]
    split
    · simp
    · exact bytes _ _ _ _ fun bs h => by cases h
  case sinkSlice =>
    simp only [exec, execSinkSlice, readBegin, readEnd, readOperand_eq, andThen_next]
    split
    · simp
    · exact bytes _ _ _ _ fun bs h => by cases h
  all_goals exact fun h => by cases h

end Sys2Proof.Machine
end

