-- ==== Sys2Proof/Laws/Host.lean ====
section
/-! SUPPORT. Everything a step can do: each line of the host program is a host action, a command, or a change in the host
alone (R50, R90). -/

namespace Sys2Proof.Machine

/-- What one step makes of a state: only the host moves (R90), one operand register or buffer is written (R50), or a command
is issued (R87). -/
inductive Moves (s : State) : State → Prop where
  | host (h : HostState) (hp : h.program = s.host.program) : Moves s { s with host := h }
  | val (v : DWord) : Moves s { nextLine s with val := .holding v }
  | off (v : Word) : Moves s { nextLine s with off := .holding v }
  | beginReg (v : Word) : Moves s { nextLine s with beginReg := .holding v }
  | endReg (v : Word) : Moves s { nextLine s with endReg := .holding v }
  | ibufLen (v : Word) (h : v.toNat ≤ s.build.ibufMax.toNat) : Moves s { nextLine s with ibufLen := .holding v }
  | ibuf (a : Nat) (b : Byte) (h : a < s.build.ibufMax.toNat) :
      Moves s { nextLine s with ibuf := Mem.write s.ibuf a b }
  | buffer (bs : List Byte) (h : bs.length ≤ s.build.ibufMax.toNat) :
      Moves s { nextLine s with ibuf := Mem.writeList s.ibuf 0 bs, ibufLen := .holding (BitVec.ofNat 32 bs.length) }
  | issue (w : Word) (t : State) (h : issue w (nextLine s) = .next t) : Moves s t

/-- Everything a host read of RES, NOFF or OLEN can do (R46, R50; log entry 1). -/
theorem readResult_eq {w : Nat} (r : HostReg) (v : Option (BitVec w)) (s : State) :
    (∀ x, v = some x → readResult r v s = .next x.toNat) ∧
      (v = none → s.status.written = true → readResult r v s = .fault (.unwritten (.result r))) ∧
      (v = none → s.status.written = false → readResult r v s = .next (resetBits w).toNat) :=
  ⟨by rintro x rfl; rfl, by rintro rfl h; simp [readResult, h], by rintro rfl h; simp [readResult, h]⟩

/-- A number expression answers exactly the numbers its value is. -/
theorem evalNumber_eq_next {s : State} {e : Expr} {n : Int} : evalNumber s e = .next n ↔ evalExpr s e = .next (.int n) := by
  refine andThen_eq_next.trans ⟨?_, fun h => ⟨_, h, rfl⟩⟩
  rintro ⟨v, h, hv⟩
  cases v with
  | int m => cases hv; exact h
  | bytes bs => cases hv

/-- A list expression answers exactly the byte lists its value is. -/
theorem evalBytes_eq_next {s : State} {e : Expr} {bs : List Byte} :
    evalBytes s e = .next bs ↔ evalExpr s e = .next (.bytes bs) := by
  refine andThen_eq_next.trans ⟨?_, fun h => ⟨_, h, rfl⟩⟩
  rintro ⟨v, h, hv⟩
  cases v with
  | int m => cases hv
  | bytes bs => cases hv; exact h

theorem hostSetIbuf_eq_next {bs : List Byte} {s t : State} :
    hostSetIbuf bs s = .next t ↔ bs.length ≤ s.build.ibufMax.toNat ∧
      t = { s with ibuf := Mem.writeList s.ibuf 0 bs, ibufLen := .holding (BitVec.ofNat 32 bs.length) } := by
  unfold hostSetIbuf
  split <;> simp [*, eq_comm]

theorem hostWriteIbuf_eq_next {i b : Int} {s t : State} :
    hostWriteIbuf i b s = .next t ↔ (0 ≤ i ∧ i < s.build.ibufMax.toNat) ∧
      t = { s with ibuf := Mem.write s.ibuf i.toNat (BitVec.ofInt 8 b) } := by
  unfold hostWriteIbuf
  split <;> simp [*, eq_comm]

/-- A number below 2^w is its own pattern. -/
theorem ofInt_toNat_le {w n : Nat} {v : Int} (h0 : 0 ≤ v) (h : v ≤ n) : (BitVec.ofInt w v).toNat ≤ n := by
  obtain ⟨k, rfl⟩ := Int.eq_ofNat_of_zero_le h0
  rw [BitVec.ofInt_natCast, BitVec.toNat_ofNat]
  exact (Nat.mod_le _ _).trans (by omega)

/-- Everything a write of an operand register can do. -/
theorem hostWrite_moves {r : OpReg} {v : Int} {s t : State} (h : hostWrite r v (nextLine s) = .next t) : Moves s t := by
  cases r
  case ibufLen =>
    simp only [hostWrite] at h
    split at h
    · rename_i hv
      cases h
      exact .ibufLen _ (ofInt_toNat_le hv.1 hv.2)
    · cases h
  all_goals cases h
  · exact .val _
  · exact .off _
  · exact .beginReg _
  · exact .endReg _

theorem jump_moves {l : Nat} {s t : State} (h : jump l s = .next t) : Moves s t := by
  unfold jump at h
  split at h
  · cases h
    exact .host _ rfl
  · cases h

/-- Everything a line can do. -/
theorem runLine_moves {x : Line} {s t : State} (h : runLine x s = .next t) : Moves s t := by
  cases x
  case word w => exact .issue w t h
  case command i => exact .issue _ t h
  case write r e =>
    obtain ⟨v, -, h⟩ := andThen_eq_next.1 h
    exact hostWrite_moves h
  case writeIbuf i b =>
    obtain ⟨k, -, h⟩ := andThen_eq_next.1 h
    obtain ⟨v, -, h⟩ := andThen_eq_next.1 h
    obtain ⟨hk, rfl⟩ := hostWriteIbuf_eq_next.1 h
    simp only [nextLine_build] at hk
    exact .ibuf _ _ (by omega)
  case setIbuf l =>
    obtain ⟨bs, -, h⟩ := andThen_eq_next.1 h
    obtain ⟨hb, rfl⟩ := hostSetIbuf_eq_next.1 h
    exact .buffer bs hb
  case copyObuf =>
    obtain ⟨bs, -, h⟩ := andThen_eq_next.1 h
    obtain ⟨hb, rfl⟩ := hostSetIbuf_eq_next.1 h
    exact .buffer bs hb
  case read t r =>
    obtain ⟨n, -, h⟩ := andThen_eq_next.1 h
    cases h
    exact .host _ rfl
  case readObuf t i =>
    obtain ⟨n, -, h⟩ := andThen_eq_next.1 h
    obtain ⟨b, -, h⟩ := andThen_eq_next.1 h
    cases h
    exact .host _ rfl
  case assign t e =>
    obtain ⟨v, -, h⟩ := andThen_eq_next.1 h
    cases h
    exact .host _ rfl
  case label l =>
    cases h
    exact .host _ rfl
  case branch c l =>
    obtain ⟨b, -, h⟩ := andThen_eq_next.1 h
    cases b
    · cases h
      exact .host _ rfl
    · exact jump_moves h
  case goto l => exact jump_moves h
  case halt =>
    cases h
    exact .host s.host rfl

/-- Everything a step that answers can have done. -/
theorem step_moves {s t : State} (h : step s = .next t) : Moves s t := by
  unfold step at h
  split at h
  · cases h
    exact .host s.host rfl
  · exact runLine_moves h

/-- A label is found exactly where the program has it. -/
theorem findLabel_isSome (ls : List Line) (l : Nat) : (findLabel ls l).isSome = ls.contains (.label l) := by
  induction ls with
  | nil => rfl
  | cons x rest ih =>
    by_cases h : x = .label l
    · simp [findLabel, h]
    · simp [findLabel, h, ih, Ne.symm h]

end Sys2Proof.Machine
end

