-- ==== Sys2Proof/Laws/PerInstr.lean ====
section
/-! SUPPORT. For every command as syntax: its fields pass the checks of R84 and R86, and its word decodes to it (R82, R83). -/

namespace Sys2Proof.Laws.Encoding

/-- The command's fields are well formed, its word has them, and the decoder reads it back. -/
def Statement (i : Instr) : Prop :=
  i.command.wellFormed = true ∧ Command.ofWord (encode i) = i.command ∧ decode (encode i) = .instr i

theorem encVarint : Statement .encVarint := ⟨by decide, by decide, by decide⟩
theorem encSvarint : Statement .encSvarint := ⟨by decide, by decide, by decide⟩
theorem decLen : Statement .decLen := ⟨by decide, by decide, by decide⟩
theorem decVarint : Statement .decVarint := ⟨by decide, by decide, by decide⟩
theorem decSvarint : Statement .decSvarint := ⟨by decide, by decide, by decide⟩
theorem rawToken : Statement .rawToken := ⟨by decide, by decide, by decide⟩
theorem zzEnc32 : Statement .zzEnc32 := ⟨by decide, by decide, by decide⟩
theorem zzDec32 : Statement .zzDec32 := ⟨by decide, by decide, by decide⟩
theorem zzEnc64 : Statement .zzEnc64 := ⟨by decide, by decide, by decide⟩
theorem zzDec64 : Statement .zzDec64 := ⟨by decide, by decide, by decide⟩
theorem packInt32 : Statement .packInt32 := ⟨by decide, by decide, by decide⟩
theorem packUint32 : Statement .packUint32 := ⟨by decide, by decide, by decide⟩
theorem packFloat32 : Statement .packFloat32 := ⟨by decide, by decide, by decide⟩
theorem packInt64 : Statement .packInt64 := ⟨by decide, by decide, by decide⟩
theorem packUint64 : Statement .packUint64 := ⟨by decide, by decide, by decide⟩
theorem packFloat64 : Statement .packFloat64 := ⟨by decide, by decide, by decide⟩
theorem unpackInt32 : Statement .unpackInt32 := ⟨by decide, by decide, by decide⟩
theorem unpackUint32 : Statement .unpackUint32 := ⟨by decide, by decide, by decide⟩
theorem unpackFloat32 : Statement .unpackFloat32 := ⟨by decide, by decide, by decide⟩
theorem unpackInt64 : Statement .unpackInt64 := ⟨by decide, by decide, by decide⟩
theorem unpackUint64 : Statement .unpackUint64 := ⟨by decide, by decide, by decide⟩
theorem unpackFloat64 : Statement .unpackFloat64 := ⟨by decide, by decide, by decide⟩
theorem sinkAppend : Statement .sinkAppend := ⟨by decide, by decide, by decide⟩
theorem sinkLen : Statement .sinkLen := ⟨by decide, by decide, by decide⟩
theorem sinkBytes : Statement .sinkBytes := ⟨by decide, by decide, by decide⟩
theorem sinkSlice : Statement .sinkSlice := ⟨by decide, by decide, by decide⟩
theorem sinkClear : Statement .sinkClear := ⟨by decide, by decide, by decide⟩

end Sys2Proof.Laws.Encoding
end

