-- ==== Sys2Proof/Tests/Slice0.lean ====
section
/-! SUPPORT. The model's own tests. Expected results are from the tables of 95_test_vectors.md (named in each comment) and
from the encoding tables of 30_encoding.md. The second half shows, for every statement with hypotheses, values that meet
them together. -/

namespace Sys2Proof.Tests

open Sys2Proof.Machine Sys2Proof.Safety

/-! ## Small states -/

/-- An instance with a capacity of `cap` bytes and 16 bytes of IBUF, right after reset. -/
def fresh (cap : Word) : State := State.resetOf { cap := cap, ibufMax := 16#32 }

/-- The host has written VAL. -/
def valued (v : DWord) : State := { fresh 65535#32 with val := ⟨v, true⟩ }

/-- The host has written IBUF, IBUF_LEN and OFF. -/
def buffered (bs : List Byte) (off : Word) : State :=
  { fresh 65535#32 with
    ibuf := (List.range bs.length).zip bs, ibufLen := ⟨BitVec.ofNat 32 bs.length, true⟩, off := ⟨off, true⟩ }

/-- The sink of capacity 4 holds `held`, and the host has written the bytes to append and the slice bounds. -/
def sinking (held bs : List Byte) (b e : Word) : State :=
  { fresh 4#32 with
    sink := (List.range held.length).zip held, len := BitVec.ofNat 32 held.length
    ibuf := (List.range bs.length).zip bs, ibufLen := ⟨BitVec.ofNat 32 bs.length, true⟩
    beginReg := ⟨b, true⟩, endReg := ⟨e, true⟩ }

/-- The sink of S1 to S3, and of S4 to S14. -/
def three : List Byte := [0xAA#8, 0xBB#8, 0xCC#8]

def four : List Byte := [0xAA#8, 0xBB#8, 0xCC#8, 0xDD#8]

/-- A sink of capacity 4 that holds three bytes, after an ENC_VARINT of 300; IBUF_LEN is `n` and IBUF[0] is written. -/
def encoded (n : Word) : State :=
  { sinking three [0xDD#8] 2#32 3#32 with
    ibufLen := ⟨n, true⟩, cmd := ⟨0x00000001#32, true⟩, status := ⟨0x00#8, true⟩, olen := some 2#32
    obuf := [(0, 0xAC#8), (1, 0x02#8)] }

/-- The host's next line. -/
def running (x : Line) (s : State) : State := { s with host := { program := [x], pos := 0, vars := [(7, .int 3)] } }

/-- What a row of the tables shows of a command: STATUS, RES, NOFF, OLEN and OBUF. -/
structure Row where
  status : Reg 8
  res : Option DWord
  noff : Option Word
  olen : Option Word
  obuf : List (Nat × Byte)
  deriving DecidableEq, Repr

/-- The result registers after a command. -/
def results (x : Host.Outcome State Fault Refusal) : Option Row :=
  match x with
  | .next t => some ⟨t.status, t.res, t.noff, t.olen, t.obuf⟩
  | .fault _ => none
  | .refused _ => none

/-- LEN and SINK after a command, with its STATUS. -/
def sinkAfter (x : Host.Outcome State Fault Refusal) : Option (Reg 8 × Word × Mem) :=
  match x with
  | .next t => some (t.status, t.len, t.sink)
  | .fault _ => none
  | .refused _ => none

/-- The model fault of a step, if it is one. -/
def faultOf (x : Host.Outcome State Fault Refusal) : Option Fault :=
  match x with
  | .next _ => none
  | .fault e => some e
  | .refused _ => none

/-- The refusal of a step, if it is one. -/
def refusalOf (x : Host.Outcome State Fault Refusal) : Option Refusal :=
  match x with
  | .next _ => none
  | .fault _ => none
  | .refused r => some r

/-- A result row of the tables: STATUS OK and the registers it shows, ⊥ in the others. -/
def ok (res : Option DWord) (noff : Option Word) (bytes : Option (List Byte)) : Option Row :=
  some ⟨⟨0x00#8, true⟩, res, noff, bytes.map fun bs => BitVec.ofNat 32 bs.length,
    (List.range (bytes.getD []).length).zip (bytes.getD [])⟩

/-- A result row with an error status. -/
def err (c : Byte) : Option Row := some ⟨⟨c, true⟩, none, none, none, []⟩

/-! ## Decoding: words written out bit by bit, RSV then KIND then OPC (R81) -/

theorem test_decode_varint :
    decode 0b00000000000000000000000000000001#32 = .instr .encVarint ∧
      decode 0b00000000000000000000000000000010#32 = .instr .encSvarint ∧
      decode 0b00000000000000000000000000000011#32 = .instr .decLen ∧
      decode 0b00000000000000000000000000000100#32 = .instr .decVarint ∧
      decode 0b00000000000000000000000000000101#32 = .instr .decSvarint ∧
      decode 0b00000000000000000000000000000110#32 = .instr .rawToken := by decide

theorem test_decode_zigzag :
    decode 0b00000000000000000000000000010000#32 = .instr .zzEnc32 ∧
      decode 0b00000000000000000000000000010001#32 = .instr .zzDec32 ∧
      decode 0b00000000000000000000000000010010#32 = .instr .zzEnc64 ∧
      decode 0b00000000000000000000000000010011#32 = .instr .zzDec64 := by decide

theorem test_decode_pack :
    decode 0b00000000000000000000000000100000#32 = .instr .packInt32 ∧
      decode 0b00000000000000000000000100100000#32 = .instr .packUint32 ∧
      decode 0b00000000000000000000001000100000#32 = .instr .packFloat32 ∧
      decode 0b00000000000000000000001100100000#32 = .instr .packInt64 ∧
      decode 0b00000000000000000000010000100000#32 = .instr .packUint64 ∧
      decode 0b00000000000000000000010100100000#32 = .instr .packFloat64 := by decide

theorem test_decode_unpack :
    decode 0b00000000000000000000000000100001#32 = .instr .unpackInt32 ∧
      decode 0b00000000000000000000000100100001#32 = .instr .unpackUint32 ∧
      decode 0b00000000000000000000001000100001#32 = .instr .unpackFloat32 ∧
      decode 0b00000000000000000000001100100001#32 = .instr .unpackInt64 ∧
      decode 0b00000000000000000000010000100001#32 = .instr .unpackUint64 ∧
      decode 0b00000000000000000000010100100001#32 = .instr .unpackFloat64 := by decide

theorem test_decode_sink :
    decode 0b00000000000000000000000000110000#32 = .instr .sinkAppend ∧
      decode 0b00000000000000000000000000110001#32 = .instr .sinkLen ∧
      decode 0b00000000000000000000000000110010#32 = .instr .sinkBytes ∧
      decode 0b00000000000000000000000000110011#32 = .instr .sinkSlice ∧
      decode 0b00000000000000000000000000110100#32 = .instr .sinkClear := by decide

/-- E1 to E7 and the edges of R82's reserved ranges. -/
theorem test_decode_illegal :
    decode 0x00000000#32 = .illegalCommand ∧ decode 0x00000007#32 = .illegalCommand ∧
      decode 0x0000000F#32 = .illegalCommand ∧ decode 0x00000014#32 = .illegalCommand ∧
      decode 0x0000001F#32 = .illegalCommand ∧ decode 0x00000022#32 = .illegalCommand ∧
      decode 0x0000002F#32 = .illegalCommand ∧ decode 0x00000035#32 = .illegalCommand ∧
      decode 0x000000FF#32 = .illegalCommand ∧ decode 0x00010001#32 = .illegalCommand ∧
      decode 0x00000101#32 = .illegalCommand ∧ decode 0x00000134#32 = .illegalCommand ∧
      decode 0x80000020#32 = .illegalCommand := by decide

/-- E8, U14, F23. -/
theorem test_decode_unsupported :
    decode 0x00000620#32 = .unsupportedKind ∧ decode 0x00000621#32 = .unsupportedKind ∧
      decode 0x0000FF20#32 = .unsupportedKind := by decide

theorem test_decode_table_word :
    decodeTableWord 32 0x520 = some .packFloat64 ∧ decodeTableWord 32 0x620 = none ∧ decodeTableWord 8 0x01 =
      some .encVarint := by decide

/-! ## Well-formedness: each check refuses an ill-formed term -/

theorem test_wellFormed_opc : Command.opcKnown ⟨0x07#8, 0x00#8, 0#16⟩ = false ∧
    Command.wellFormed ⟨0x07#8, 0x00#8, 0#16⟩ = false := by decide

theorem test_wellFormed_rsv : Command.rsvZero ⟨0x01#8, 0x00#8, 1#16⟩ = false ∧
    Command.wellFormed ⟨0x01#8, 0x00#8, 1#16⟩ = false := by decide

theorem test_wellFormed_kindZero : Command.kindZero ⟨0x34#8, 0x01#8, 0#16⟩ = false ∧
    Command.wellFormed ⟨0x34#8, 0x01#8, 0#16⟩ = false := by decide

theorem test_wellFormed_kind : Command.legal ⟨0x20#8, 0x06#8, 0#16⟩ = true ∧
    Command.kindSupported ⟨0x20#8, 0x06#8, 0#16⟩ = false ∧
    Command.wellFormed ⟨0x20#8, 0x06#8, 0#16⟩ = false := by decide

theorem test_programWellFormed : programWellFormed [.label 1, .goto 1] = true ∧
    jumpsResolve [.goto 1] = false ∧ labelsDistinct [.label 1, .label 1] = false ∧
    programWellFormed [.assign 0 (.reg .res)] = false ∧ programWellFormed [.goto 1] = false ∧
    programWellFormed [.label 1, .label 1] = false := by decide

/-! ## Varints -/

/-- V6, V18. -/
theorem test_encVarint : results (exec .encVarint (valued 300#64)) = ok none none (some [0xAC#8, 0x02#8]) := by decide

theorem test_encVarint_ten : results (exec .encVarint (valued 0x8000000000000000#64)) =
    ok none none (some [0x80#8, 0x80#8, 0x80#8, 0x80#8, 0x80#8, 0x80#8, 0x80#8, 0x80#8, 0x80#8, 0x01#8]) := by decide

/-- V25, V20. -/
theorem test_encSvarint : results (exec .encSvarint (valued 0xFFFFFFFF80000000#64)) =
    ok none none (some [0x80#8, 0x80#8, 0x80#8, 0x80#8, 0xF8#8, 0xFF#8, 0xFF#8, 0xFF#8, 0xFF#8, 0x01#8]) := by decide

theorem test_encSvarint_zero : results (exec .encSvarint (valued 0#64)) = ok none none (some [0x00#8]) := by decide

/-- The buffer of D18 to D24. -/
def walk : List Byte := [0xAC#8, 0x02#8, 0x96#8, 0x01#8, 0x7F#8, 0x80#8]

/-- D20, D24. -/
theorem test_decLen : results (exec .decLen (buffered walk 2#32)) = ok (some 2#64) none none := by decide

theorem test_decLen_past : results (exec .decLen (buffered walk 7#32)) = err 0x01#8 := by decide

/-- D13, D15. -/
theorem test_decVarint : results (exec .decVarint (buffered
    [0xFF#8, 0xFF#8, 0xFF#8, 0xFF#8, 0xFF#8, 0xFF#8, 0xFF#8, 0xFF#8, 0xFF#8, 0x00#8] 0#32)) =
    ok (some 0x7FFFFFFFFFFFFFFF#64) (some 10#32) none := by decide

theorem test_decVarint_eleven : results (exec .decVarint (buffered
    [0x80#8, 0x80#8, 0x80#8, 0x80#8, 0x80#8, 0x80#8, 0x80#8, 0x80#8, 0x80#8, 0x80#8, 0x01#8] 0#32)) = err 0x01#8 := by
  decide

/-- D12, D11. -/
theorem test_decSvarint : results (exec .decSvarint (buffered
    [0xFE#8, 0xFF#8, 0xFF#8, 0xFF#8, 0xFF#8, 0xFF#8, 0xFF#8, 0xFF#8, 0xFF#8, 0x01#8] 0#32)) =
    ok (some 0xFFFFFFFFFFFFFFFE#64) (some 10#32) none := by decide

theorem test_decSvarint_bit64 : results (exec .decSvarint (buffered
    [0x80#8, 0x80#8, 0x80#8, 0x80#8, 0x80#8, 0x80#8, 0x80#8, 0x80#8, 0x80#8, 0x02#8] 0#32)) =
    ok (some 0#64) (some 10#32) none := by decide

/-- D20, D7. -/
theorem test_rawToken : results (exec .rawToken (buffered walk 2#32)) = ok none (some 4#32) (some [0x96#8, 0x01#8]) := by
  decide

theorem test_rawToken_long : results (exec .rawToken (buffered [0xFF#8, 0x80#8, 0x00#8] 0#32)) =
    ok none (some 3#32) (some [0xFF#8, 0x80#8, 0x00#8]) := by decide

/-- E10 and E11: the scan reads no byte past the terminator, and faults on a byte the host never wrote. -/
theorem test_scan_unwritten :
    results (exec .decLen { buffered [0x05#8] 0#32 with ibufLen := ⟨2#32, true⟩ }) = ok (some 1#64) none none ∧
      faultOf (exec .decLen { buffered [0x85#8] 0#32 with ibufLen := ⟨2#32, true⟩ }) =
        some (.unwritten (.byte .ibuf 1)) := by decide

/-! ## Zigzag -/

/-- Z10, Z11. -/
theorem test_zzEnc32 : results (exec .zzEnc32 (valued 0x80000000#64)) = ok (some 0x00000000FFFFFFFF#64) none none := by decide

theorem test_zzEnc32_high : results (exec .zzEnc32 (valued 0xFFFFFFFF00000001#64)) = ok (some 2#64) none none := by decide

/-- Z20, Z21. -/
theorem test_zzDec32 : results (exec .zzDec32 (valued 0xFFFFFFFF#64)) = ok (some 0xFFFFFFFF80000000#64) none none := by decide

theorem test_zzDec32_high : results (exec .zzDec32 (valued 0xDEADBEEF00000003#64)) =
    ok (some 0xFFFFFFFFFFFFFFFE#64) none none := by decide

/-- Z26, Z28. -/
theorem test_zzEnc64 : results (exec .zzEnc64 (valued 0xFFFFFFFFFFFFFFFD#64)) = ok (some 5#64) none none := by decide

theorem test_zzEnc64_min : results (exec .zzEnc64 (valued 0x8000000000000000#64)) =
    ok (some 0xFFFFFFFFFFFFFFFF#64) none none := by decide

/-- Z33, Z35. -/
theorem test_zzDec64 : results (exec .zzDec64 (valued 5#64)) = ok (some 0xFFFFFFFFFFFFFFFD#64) none none := by decide

theorem test_zzDec64_max : results (exec .zzDec64 (valued 0xFFFFFFFFFFFFFFFF#64)) =
    ok (some 0x8000000000000000#64) none none := by decide

/-! ## Fixed width -/

/-- F4. -/
theorem test_packInt32 : results (exec .packInt32 (valued 0x123456789#64)) =
    ok none none (some [0x89#8, 0x67#8, 0x45#8, 0x23#8]) := by decide

/-- F8. -/
theorem test_packUint32 : results (exec .packUint32 (valued 0xDEADBEEF12345678#64)) =
    ok none none (some [0x78#8, 0x56#8, 0x34#8, 0x12#8]) := by decide

/-- F12. -/
theorem test_packFloat32 : results (exec .packFloat32 (valued 0x7FC00001#64)) =
    ok none none (some [0x01#8, 0x00#8, 0xC0#8, 0x7F#8]) := by decide

/-- F14. -/
theorem test_packInt64 : results (exec .packInt64 (valued 0xFFFFFFFFFFFFFFFE#64)) =
    ok none none (some [0xFE#8, 0xFF#8, 0xFF#8, 0xFF#8, 0xFF#8, 0xFF#8, 0xFF#8, 0xFF#8]) := by decide

/-- F16. -/
theorem test_packUint64 : results (exec .packUint64 (valued 0x0102030405060708#64)) =
    ok none none (some [0x08#8, 0x07#8, 0x06#8, 0x05#8, 0x04#8, 0x03#8, 0x02#8, 0x01#8]) := by decide

/-- F21. -/
theorem test_packFloat64 : results (exec .packFloat64 (valued 0x7FF8000000000001#64)) =
    ok none none (some [0x01#8, 0x00#8, 0x00#8, 0x00#8, 0x00#8, 0x00#8, 0xF8#8, 0x7F#8]) := by decide

/-- The buffer of U1 to U14. -/
def words : List Byte := [0x78#8, 0x56#8, 0x34#8, 0x12#8, 0xFF#8, 0xFF#8, 0xFF#8, 0xFF#8, 0x00#8, 0x00#8]

/-- U2, U12. -/
theorem test_unpackInt32 : results (exec .unpackInt32 (buffered words 4#32)) =
    ok (some 0xFFFFFFFFFFFFFFFF#64) none none := by decide

theorem test_unpackInt32_positive : results (exec .unpackInt32 (buffered words 6#32)) =
    ok (some 0xFFFF#64) none none := by decide

/-- U1, U15. -/
theorem test_unpackUint32 : results (exec .unpackUint32 (buffered words 0#32)) = ok (some 0x12345678#64) none none := by decide

theorem test_unpackUint32_short : results (exec .unpackUint32 (buffered [0x34#8, 0x12#8] 0#32)) =
    ok (some 0x1234#64) none none := by decide

/-- U18, U19. -/
theorem test_unpackFloat32 : results (exec .unpackFloat32 (buffered [0x00#8, 0x00#8, 0x00#8, 0x80#8] 0#32)) =
    ok (some 0x80000000#64) none none := by decide

theorem test_unpackFloat32_short : results (exec .unpackFloat32 (buffered [0x00#8, 0x00#8, 0x80#8] 0#32)) =
    ok (some 0x00800000#64) none none := by decide

/-- U5, U20. -/
theorem test_unpackInt64 : results (exec .unpackInt64 (buffered words 2#32)) = ok (some 0x0000FFFFFFFF1234#64) none none := by
  decide

theorem test_unpackInt64_short : results (exec .unpackInt64
    (buffered [0x34#8, 0x12#8, 0xFF#8, 0xFF#8, 0xFF#8, 0xFF#8] 0#32)) = ok (some 0x0000FFFFFFFF1234#64) none none := by decide

/-- U4, and U10's empty remainder. -/
theorem test_unpackUint64 : results (exec .unpackUint64 (buffered words 0#32)) = ok (some 0xFFFFFFFF12345678#64) none none := by
  decide

theorem test_unpackUint64_empty : results (exec .unpackUint64 (buffered words 11#32)) = ok (some 0#64) none none := by decide

/-- U6, U22. -/
theorem test_unpackFloat64 : results (exec .unpackFloat64 (buffered words 4#32)) = ok (some 0xFFFFFFFF#64) none none := by decide

theorem test_unpackFloat64_one : results (exec .unpackFloat64
    (buffered [0x00#8, 0x00#8, 0x00#8, 0x00#8, 0x00#8, 0x00#8, 0xF0#8, 0x3F#8] 0#32)) =
    ok (some 0x3FF0000000000000#64) none none := by decide

/-! ## The byte sink -/

/-- S4, S2. -/
theorem test_sinkAppend : sinkAfter (exec .sinkAppend (sinking three [0xDD#8] 0#32 0#32)) =
    some (⟨0x00#8, true⟩, 4#32, [(0, 0xAA#8), (1, 0xBB#8), (2, 0xCC#8), (3, 0xDD#8)]) := by decide

theorem test_sinkAppend_past : sinkAfter (exec .sinkAppend (sinking three [0xDD#8, 0xEE#8] 0#32 0#32)) =
    some (⟨0x02#8, true⟩, 3#32, [(0, 0xAA#8), (1, 0xBB#8), (2, 0xCC#8)]) := by decide

/-- S14. -/
theorem test_sinkLen : results (exec .sinkLen (sinking four [] 0#32 0#32)) = ok (some 4#64) none none := by decide

/-- S13, S17. -/
theorem test_sinkBytes : results (exec .sinkBytes (sinking four [] 0#32 0#32)) = ok none none (some four) := by decide

theorem test_sinkBytes_empty : results (exec .sinkBytes (sinking [] [] 0#32 0#32)) = ok none none (some []) := by decide

/-- S8; S10, S11, S12 and S18. -/
theorem test_sinkSlice : results (exec .sinkSlice (sinking four [] 2#32 3#32)) = ok none none (some [0xBB#8, 0xCC#8]) := by
  decide

theorem test_sinkSlice_outside : results (exec .sinkSlice (sinking four [] 0#32 1#32)) = err 0x03#8 ∧
    results (exec .sinkSlice (sinking four [] 3#32 2#32)) = err 0x03#8 ∧
    results (exec .sinkSlice (sinking four [] 1#32 5#32)) = err 0x03#8 ∧
    results (exec .sinkSlice (sinking [] [] 1#32 0#32)) = err 0x03#8 := by decide

/-- S15. -/
theorem test_sinkClear : (sinkAfter (exec .sinkClear (sinking four [] 0#32 0#32))).map (fun x => (x.1, x.2.1)) =
    some (⟨0x00#8, true⟩, 0#32) := by decide

/-! ## Issue, errors and the host -/

/-- E5, E6 and F22: the errors of step (1) and (2) of R187. -/
theorem test_issue_errors : results (step (running (.word 0x00000101#32) (valued 5#64))) = err 0x05#8 ∧
    sinkAfter (step (running (.word 0x00000134#32) (sinking four [] 0#32 0#32))) =
      some (⟨0x05#8, true⟩, 4#32, [(0, 0xAA#8), (1, 0xBB#8), (2, 0xCC#8), (3, 0xDD#8)]) ∧
    results (step (running (.word 0x00000620#32) (valued 5#64))) = err 0x04#8 := by decide

/-- E9: R46's fault for an operand register is `Safety.modelFault`; E12: SINK_LEN needs no operand. -/
theorem test_modelFault : modelFault .packInt32 (fresh 4#32) = some (.unwritten (.operand .val)) ∧
    modelFault .sinkLen (fresh 4#32) = none ∧ results (exec .sinkLen (fresh 4#32)) = ok (some 0#64) none none := by decide

/-- A table word runs as the first instruction after reset. -/
theorem test_withFetchWord : results (step (State.reset.withFetchWord 32 0x30)) = ok none none none ∧
    results (step (State.reset.withFetchWord 32 0x03)) = err 0x01#8 ∧
    results (step (State.reset.withFetchWord 32 0x20)) = ok none none (some [0x00#8, 0x00#8, 0x00#8, 0x00#8]) := by decide

/-- P3, line 1: `VAL := bits64(-3)`. -/
theorem test_host_write : (match step (running (.write .val (.conv .bits64 (.const (-3)))) (fresh 4#32)) with
    | .next t => some t.val
    | .fault _ => none
    | .refused _ => none) = some ⟨0xFFFFFFFFFFFFFFFD#64, true⟩ := by decide

/-- R15's forms, on the OBUF of V6 held in host variable 7: `len(L)`, `L[1]`, `L[1..2) ++ [5]` and `OBUF[1]`. -/
theorem test_host_lists :
    let s := { fresh 4#32 with
      olen := some 2#32, obuf := [(0, 0xAC#8), (1, 0x02#8)]
      host := { program := [], pos := 0, vars := [(7, .bytes [0xAC#8, 0x02#8])] } }
    (match evalNumber s (.len (.var 7)) with | .next n => some n | .fault _ => none | .refused _ => none) = some 2 ∧
      (match evalNumber s (.item (.var 7) (.const 1)) with
        | .next n => some n
        | .fault _ => none
        | .refused _ => none) = some 2 ∧
      (match evalBytes s (.append (.sublist (.var 7) (.const 1) (.const 2)) (.single (.const 5))) with
        | .next bs => some bs
        | .fault _ => none
        | .refused _ => none) = some [0x02#8, 0x05#8] ∧
      (match evalNumber s (.obufAt (.const 1)) with | .next n => some n | .fault _ => none | .refused _ => none) = some 2 := by
  decide

/-- R13 and R14: zext_64 of a value wider than 32 bits keeps it, and `-a` is a two's-complement negation. -/
theorem test_host_bits : Conv.zext64.apply 0xFF00000001 = 0xFF00000001 ∧ Conv.sext64.apply 0x80000000 = 0xFFFFFFFF80000000 ∧
    (match evalNumber (fresh 4#32) (.negBits 32 (.const 1)) with
      | .next n => some n
      | .fault _ => none
      | .refused _ => none) = some 0xFFFFFFFF := by decide

/-- R12 and R64: byte 1 of 0xABCD is w[8i + 7 : 8i] at i = 1, with i the host variable 7. -/
theorem test_host_field :
    let s := { fresh 4#32 with host := { program := [], pos := 0, vars := [(7, .int 1)] } }
    let base := Expr.mul (.const 8) (.var 7)
    (match evalNumber s (.slice (.const 0xABCD) (.add base (.const 7)) base) with
      | .next n => some n
      | .fault _ => none
      | .refused _ => none) = some 0xAB := by decide

/-- R52's refusals, and R46's fault for a host read of ⊥. -/
theorem test_host_outside :
    refusalOf (step (running (.write .ibufLen (.const 17)) (fresh 4#32))) = some (.ibufLenAboveMax 17) ∧
      refusalOf (step (running (.writeIbuf (.const 16) (.const 1)) (fresh 4#32))) = some (.ibufIndexOutside 16) ∧
      refusalOf (step (running (.readObuf 0 (.const 2)) { fresh 4#32 with olen := some 2#32 })) =
        some (.obufIndexOutside 2) ∧
      faultOf (step (running (.read 0 .res) (encoded 1#32))) = some (.unwritten (.result .res)) ∧
      faultOf (step (running (.read 0 .noff) (encoded 1#32))) = some (.unwritten (.result .noff)) := by decide

/-- Before the first command no read of a result register stops (log entry 1). -/
theorem test_host_reads_after_reset : ∀ r ∈ [HostReg.status, .res, .noff, .olen, .obuf, .cap, .cmd],
    faultOf (step (running (.read 0 r) (fresh 4#32))) = none ∧ refusalOf (step (running (.read 0 r) (fresh 4#32))) = none := by
  decide

/-! ## Witnesses: for every statement with hypotheses, values that meet them together -/

theorem isVarint_of {bs : List Byte} (h : 1 ≤ bs.length ∧ bs.length ≤ 10)
    (hc : ∀ i : Fin bs.length, bs[i].getLsbD 7 = decide (i.1 + 1 < bs.length)) : IsVarint bs where
  nonempty := h.1
  short := h.2
  continuation := fun i b hb => by
    obtain ⟨hi, rfl⟩ := List.getElem?_eq_some_iff.1 hb
    exact hc ⟨i, hi⟩

theorem bytesAt_of {m : Mem} {a : Nat} {bs : List Byte} (h : ∀ i : Fin bs.length, Mem.read m (a + i) = some bs[i]) :
    BytesAt m a bs := fun i b hb => by
  obtain ⟨hi, rfl⟩ := List.getElem?_eq_some_iff.1 hb
  exact h ⟨i, hi⟩

/-- The longest varint: 2^63. -/
def ten : List Byte := [0x80#8, 0x80#8, 0x80#8, 0x80#8, 0x80#8, 0x80#8, 0x80#8, 0x80#8, 0x80#8, 0x01#8]

/-- Eleven bytes with the continuation bit set. -/
def eleven : List Byte := List.replicate 11 0x80#8

theorem varintAt_two : BufferFits (buffered walk 2#32) ∧ VarintAt (buffered walk 2#32) [0x96#8, 0x01#8] :=
  ⟨by unfold BufferFits; decide, isVarint_of (by decide) (by decide), by decide, bytesAt_of (by decide)⟩

theorem varintAt_ten : BufferFits (buffered ten 0#32) ∧ VarintAt (buffered ten 0#32) ten :=
  ⟨by unfold BufferFits; decide, isVarint_of (by decide) (by decide), by decide, bytesAt_of (by decide)⟩

theorem encoded_inv (n : Word) (h : n.toNat ≤ 16) (host : HostState) : Inv { encoded n with host := host } where
  spaces := (⟨by decide, by decide, by decide, by decide, by decide, by decide⟩ : SpacesInv (encoded 1#32)) |> fun s =>
    ⟨s.ibufWf, s.sinkWf, s.obufWf, s.ibufBelow, s.sinkBelow, s.obufBelow⟩
  lengths := ⟨h, show (3#32).toNat ≤ (4#32).toNat by decide,
    (by decide : ∀ a, a < (encoded 1#32).len.toNat → (Mem.read (encoded 1#32).sink a).isSome)⟩
  results := by
    refine ⟨fun _ => ⟨.ok, rfl⟩, fun hs => absurd rfl hs, (fun ho => by cases ho), ?_, rfl⟩
    intro k hk
    obtain rfl : k = 2#32 := (Option.some.inj hk).symm
    refine ⟨show (2#32).toNat ≤ spaceSize (fresh 4#32).build .obuf by decide, ?_⟩
    rintro (_ | _ | a) <;> simp [encoded, Mem.read]

/-- One word for each clause of R84, at the edges of the opcode map. -/
theorem witness_WordsNotLegalReportIllegalCommand : ∀ w ∈ [0x00000000#32, 0x00000007#32, 0x00000014#32, 0x00000022#32,
      0x00000035#32, 0x00010001#32, 0x00000101#32, 0x80000020#32],
    ¬(((0x01 ≤ (w.extractLsb' 0 8).toNat ∧ (w.extractLsb' 0 8).toNat ≤ 0x06) ∨
        (0x10 ≤ (w.extractLsb' 0 8).toNat ∧ (w.extractLsb' 0 8).toNat ≤ 0x13) ∨
        w.extractLsb' 0 8 = 0x20#8 ∨ w.extractLsb' 0 8 = 0x21#8 ∨
        (0x30 ≤ (w.extractLsb' 0 8).toNat ∧ (w.extractLsb' 0 8).toNat ≤ 0x34)) ∧
      w.extractLsb' 16 16 = 0#16 ∧
      ((w.extractLsb' 0 8 = 0x20#8 ∨ w.extractLsb' 0 8 = 0x21#8) ∨ w.extractLsb' 8 8 = 0x00#8)) := by
  intro w hw
  fin_cases hw <;> decide

theorem witness_UnsupportedKindsAreReported : ∀ w ∈ [0x00000620#32, 0x0000FF21#32],
    (w.extractLsb' 0 8 = 0x20#8 ∨ w.extractLsb' 0 8 = 0x21#8) ∧ w.extractLsb' 16 16 = 0#16 ∧
      0x05 < (w.extractLsb' 8 8).toNat := by
  intro w hw
  fin_cases hw <;> decide

theorem witness_StepRunsTheDecodedCommand : decode 0x00000120#32 = .instr .packUint32 ∧
    currentLine (running (.word 0x00000120#32) (valued 5#64)) = some (.word 0x00000120#32) ∧
    currentLine (running (.command .packUint32) (valued 5#64)) = some (.command .packUint32) := by decide

theorem witness_EncodersEmitTheMinimalVarint : ∀ i ∈ [Instr.encVarint, .encSvarint],
    (i = .encVarint ∨ i = .encSvarint) ∧ bottomOperand i (valued 300#64) = none := by decide

theorem witness_NegativeValuesEncodeToTenBytes : bottomOperand .encSvarint (valued 0xFFFFFFFFFFFFFFFF#64) = none ∧
    (valued 0xFFFFFFFFFFFFFFFF#64).val.bits.toInt < 0 := by decide

theorem witness_DecLenGivesTheLength : bottomOperand .decLen (buffered walk 2#32) = none ∧
    BufferFits (buffered walk 2#32) ∧ VarintAt (buffered walk 2#32) [0x96#8, 0x01#8] := ⟨by decide, varintAt_two⟩

theorem witness_DecodersGiveValueAndOffset :
    (∀ i ∈ [Instr.decVarint, .decSvarint], (i = .decVarint ∨ i = .decSvarint) ∧
      bottomOperand i (buffered ten 0#32) = none) ∧
      BufferFits (buffered ten 0#32) ∧ VarintAt (buffered ten 0#32) ten := ⟨by decide, varintAt_ten⟩

theorem witness_RawTokenCopiesTheBytes : bottomOperand .rawToken (buffered ten 0#32) = none ∧
    BufferFits (buffered ten 0#32) ∧ VarintAt (buffered ten 0#32) ten := ⟨by decide, varintAt_ten⟩

/-- R181's two cases: a truncated varint with an empty remainder, and ten continuation bytes. -/
theorem witness_MalformedVarintIsReported :
    (∀ i ∈ [Instr.decLen, .decVarint, .decSvarint, .rawToken],
      (i = .decLen ∨ i = .decVarint ∨ i = .decSvarint ∨ i = .rawToken) ∧
        bottomOperand i (buffered walk 6#32) = none ∧ bottomOperand i (buffered eleven 0#32) = none) ∧
      (BufferFits (buffered walk 6#32) ∧ NoVarintAt (buffered walk 6#32)) ∧
      BufferFits (buffered eleven 0#32) ∧ NoVarintAt (buffered eleven 0#32) := by
  refine ⟨by decide, ⟨by unfold BufferFits; decide, ?_⟩, by unfold BufferFits; decide, ?_⟩
  · intro i h1 h2
    exact absurd h2 (by show ¬(6 + i < 6); omega)
  · intro i h1 _
    exact ⟨0x80#8, by interval_cases i <;> decide, by decide⟩

/-- At the first byte, and at the second after one with the continuation bit set. -/
theorem witness_ScanOfAnUnwrittenByteFaults :
    (∀ i ∈ [Instr.decLen, .decVarint, .decSvarint, .rawToken],
      i = .decLen ∨ i = .decVarint ∨ i = .decSvarint ∨ i = .rawToken) ∧
    ∀ k, k < 2 → ∃ s : State, (∀ i ∈ [Instr.decLen, .decVarint, .decSvarint, .rawToken], bottomOperand i s = none) ∧
      BufferFits s ∧ k < 10 ∧
      s.off.bits.toNat + k < s.ibufLen.bits.toNat ∧
      (∀ m, m < k → ∃ b, Mem.read s.ibuf (s.off.bits.toNat + m) = some b ∧ b.getLsbD 7 = true) ∧
      Mem.read s.ibuf (s.off.bits.toNat + k) = none := by
  refine ⟨by decide, fun k hk => ?_⟩
  have : k = 0 ∨ k = 1 := by omega
  rcases this with rfl | rfl
  · exact ⟨{ buffered [] 0#32 with ibufLen := ⟨2#32, true⟩ }, by decide, by unfold BufferFits; decide, by decide,
      by decide, fun m h => absurd h (by omega), by decide⟩
  · refine ⟨{ buffered [0x80#8] 0#32 with ibufLen := ⟨2#32, true⟩ }, by decide, by unfold BufferFits; decide, by decide,
      by decide, fun m h => ⟨0x80#8, ?_, by decide⟩, by decide⟩
    obtain rfl : m = 0 := by omega
    decide

theorem witness_DecodersFailExactlyWithDecLen : ∀ i ∈ [Instr.decVarint, .decSvarint, .rawToken],
    i = .decVarint ∨ i = .decSvarint ∨ i = .rawToken := by decide

theorem witness_TenthByteGivesBit63Only : bottomOperand .decVarint (buffered ten 0#32) = none ∧
    BufferFits (buffered ten 0#32) ∧
    VarintAt (buffered ten 0#32) (List.replicate 9 0x80#8 ++ [0x01#8]) ∧ (List.replicate 9 0x80#8).length = 9 :=
  ⟨by decide, varintAt_ten.1, varintAt_ten.2, by decide⟩

theorem witness_ZigzagEncodeClosedForm : (valued 0x80000000#64).val.written = true := rfl

theorem witness_ZigzagDecodeClosedForm : (valued 0xFFFFFFFF#64).val.written = true := rfl

theorem witness_VarintRoundTrip : 10 ≤ (fresh 4#32).build.ibufMax.toNat := by decide

theorem witness_PackEmitsLittleEndianBytes :
    (∀ i ∈ [Instr.packInt32, .packUint32, .packFloat32],
      ((4 = 4 ∧ (i = .packInt32 ∨ i = .packUint32 ∨ i = .packFloat32)) ∨
        (4 = 8 ∧ (i = .packInt64 ∨ i = .packUint64 ∨ i = .packFloat64))) ∧ bottomOperand i (valued 5#64) = none) ∧
    ∀ i ∈ [Instr.packInt64, .packUint64, .packFloat64],
      ((8 = 4 ∧ (i = .packInt32 ∨ i = .packUint32 ∨ i = .packFloat32)) ∨
        (8 = 8 ∧ (i = .packInt64 ∨ i = .packUint64 ∨ i = .packFloat64))) ∧ bottomOperand i (valued 5#64) = none := by decide

/-- A whole word, a short remainder, and an empty one. -/
theorem witness_UnpackZeroPadsTheRemainder :
    (∀ i ∈ [Instr.unpackUint32, .unpackFloat32],
      ((4 = 4 ∧ (i = .unpackUint32 ∨ i = .unpackFloat32)) ∨
        (4 = 8 ∧ (i = .unpackInt64 ∨ i = .unpackUint64 ∨ i = .unpackFloat64))) ∧
      bottomOperand i (buffered words 0#32) = none) ∧
    (∀ i ∈ [Instr.unpackInt64, .unpackUint64, .unpackFloat64],
      ((8 = 4 ∧ (i = .unpackUint32 ∨ i = .unpackFloat32)) ∨
        (8 = 8 ∧ (i = .unpackInt64 ∨ i = .unpackUint64 ∨ i = .unpackFloat64))) ∧
      bottomOperand i (buffered words 8#32) = none ∧ bottomOperand i (buffered words 11#32) = none) ∧
    (BufferFits (buffered words 0#32) ∧ [0x78#8, 0x56#8, 0x34#8, 0x12#8].length =
      min 4 ((buffered words 0#32).ibufLen.bits.toNat - (buffered words 0#32).off.bits.toNat) ∧
      BytesAt (buffered words 0#32).ibuf 0 [0x78#8, 0x56#8, 0x34#8, 0x12#8]) ∧
    (BufferFits (buffered words 8#32) ∧ [0x00#8, 0x00#8].length =
      min 8 ((buffered words 8#32).ibufLen.bits.toNat - (buffered words 8#32).off.bits.toNat) ∧
      BytesAt (buffered words 8#32).ibuf 8 [0x00#8, 0x00#8]) ∧
    BufferFits (buffered words 11#32) ∧ ([] : List Byte).length =
      min 8 ((buffered words 11#32).ibufLen.bits.toNat - (buffered words 11#32).off.bits.toNat) ∧
      BytesAt (buffered words 11#32).ibuf 11 [] :=
  ⟨by decide, by decide, ⟨by unfold BufferFits; decide, by decide, bytesAt_of (by decide)⟩,
    ⟨by unfold BufferFits; decide, by decide, bytesAt_of (by decide)⟩,
    by unfold BufferFits; decide, by decide, bytesAt_of (by decide)⟩

/-- A negative word, and a short remainder. -/
theorem witness_UnpackInt32SignExtends :
    (bottomOperand .unpackInt32 (buffered words 4#32) = none ∧ bottomOperand .unpackInt32 (buffered words 9#32) = none) ∧
    (BufferFits (buffered words 4#32) ∧ [0xFF#8, 0xFF#8, 0xFF#8, 0xFF#8].length =
      min 4 ((buffered words 4#32).ibufLen.bits.toNat - (buffered words 4#32).off.bits.toNat) ∧
      BytesAt (buffered words 4#32).ibuf 4 [0xFF#8, 0xFF#8, 0xFF#8, 0xFF#8]) ∧
    BufferFits (buffered words 9#32) ∧ [0x00#8].length =
      min 4 ((buffered words 9#32).ibufLen.bits.toNat - (buffered words 9#32).off.bits.toNat) ∧
      BytesAt (buffered words 9#32).ibuf 9 [0x00#8] :=
  ⟨by decide, ⟨by unfold BufferFits; decide, by decide, bytesAt_of (by decide)⟩,
    by unfold BufferFits; decide, by decide, bytesAt_of (by decide)⟩

/-- Every kind, for the value 2^32 + 5. -/
theorem witness_PackUnpackRoundTrip : 8 ≤ (fresh 4#32).build.ibufMax.toNat ∧
    ∀ x ∈ [(Instr.packInt32, Instr.unpackInt32, 5#64), (.packUint32, .unpackUint32, 5#64),
        (.packFloat32, .unpackFloat32, 5#64), (.packInt64, .unpackInt64, 0x100000005#64),
        (.packUint64, .unpackUint64, 0x100000005#64), (.packFloat64, .unpackFloat64, 0x100000005#64)],
      (x.1 = .packInt32 ∧ x.2.1 = .unpackInt32 ∧ x.2.2 = ((0x100000005#64).extractLsb' 0 32).signExtend 64) ∨
      (x.1 = .packUint32 ∧ x.2.1 = .unpackUint32 ∧ x.2.2 = ((0x100000005#64).extractLsb' 0 32).setWidth 64) ∨
      (x.1 = .packFloat32 ∧ x.2.1 = .unpackFloat32 ∧ x.2.2 = ((0x100000005#64).extractLsb' 0 32).setWidth 64) ∨
      (x.1 = .packInt64 ∧ x.2.1 = .unpackInt64 ∧ x.2.2 = 0x100000005#64) ∨
      (x.1 = .packUint64 ∧ x.2.1 = .unpackUint64 ∧ x.2.2 = 0x100000005#64) ∨
      (x.1 = .packFloat64 ∧ x.2.1 = .unpackFloat64 ∧ x.2.2 = 0x100000005#64) := by decide

/-- The append that fills the sink exactly, and the empty append to a full sink. -/
theorem witness_AppendCopiesTheBuffer :
    (bottomOperand .sinkAppend (sinking three [0xDD#8] 0#32 0#32) = none ∧
      bottomOperand .sinkAppend (sinking four [] 0#32 0#32) = none) ∧
    (BufferFits (sinking three [0xDD#8] 0#32 0#32) ∧
      (sinking three [0xDD#8] 0#32 0#32).len.toNat + (sinking three [0xDD#8] 0#32 0#32).ibufLen.bits.toNat ≤
        (sinking three [0xDD#8] 0#32 0#32).build.cap.toNat ∧
      [0xDD#8].length = (sinking three [0xDD#8] 0#32 0#32).ibufLen.bits.toNat ∧
      BytesAt (sinking three [0xDD#8] 0#32 0#32).ibuf 0 [0xDD#8]) ∧
    BufferFits (sinking four [] 0#32 0#32) ∧
      (sinking four [] 0#32 0#32).len.toNat + (sinking four [] 0#32 0#32).ibufLen.bits.toNat ≤
        (sinking four [] 0#32 0#32).build.cap.toNat ∧
      ([] : List Byte).length = (sinking four [] 0#32 0#32).ibufLen.bits.toNat ∧
      BytesAt (sinking four [] 0#32 0#32).ibuf 0 [] :=
  ⟨by decide, ⟨by unfold BufferFits; decide, by decide, by decide, bytesAt_of (by decide)⟩,
    by unfold BufferFits; decide, by decide, by decide, bytesAt_of (by decide)⟩

/-- One byte too many. -/
theorem witness_AppendPastCapacityIsReported :
    bottomOperand .sinkAppend (sinking three [0xDD#8, 0xEE#8] 0#32 0#32) = none ∧ (sinking three [0xDD#8, 0xEE#8] 0#32 0#32).build.cap.toNat <
    (sinking three [0xDD#8, 0xEE#8] 0#32 0#32).len.toNat +
      (sinking three [0xDD#8, 0xEE#8] 0#32 0#32).ibufLen.bits.toNat := by decide

/-- A full sink, and an empty one. -/
theorem witness_SinkBytesGivesTheContents :
    ((sinking four [] 0#32 0#32).len.toNat ≤ (sinking four [] 0#32 0#32).build.cap.toNat ∧
      four.length = (sinking four [] 0#32 0#32).len.toNat ∧ BytesAt (sinking four [] 0#32 0#32).sink 0 four) ∧
    (fresh 4#32).len.toNat ≤ (fresh 4#32).build.cap.toNat ∧ ([] : List Byte).length = (fresh 4#32).len.toNat ∧
      BytesAt (fresh 4#32).sink 0 [] :=
  ⟨⟨by decide, by decide, bytesAt_of (by decide)⟩, by decide, by decide, bytesAt_of (by decide)⟩

/-- The whole contents, and the last byte alone (S7, S9). -/
theorem witness_SliceGivesTheRange :
    (bottomOperand .sinkSlice (sinking four [] 1#32 4#32) = none ∧
      bottomOperand .sinkSlice (sinking four [] 4#32 4#32) = none) ∧
    ((sinking four [] 1#32 4#32).len.toNat ≤ (sinking four [] 1#32 4#32).build.cap.toNat ∧
      1 ≤ (sinking four [] 1#32 4#32).beginReg.bits.toNat ∧
      (sinking four [] 1#32 4#32).beginReg.bits.toNat ≤ (sinking four [] 1#32 4#32).endReg.bits.toNat ∧
      (sinking four [] 1#32 4#32).endReg.bits.toNat ≤ (sinking four [] 1#32 4#32).len.toNat ∧
      four.length = (sinking four [] 1#32 4#32).endReg.bits.toNat - (sinking four [] 1#32 4#32).beginReg.bits.toNat + 1 ∧
      BytesAt (sinking four [] 1#32 4#32).sink ((sinking four [] 1#32 4#32).beginReg.bits.toNat - 1) four) ∧
    (sinking four [] 4#32 4#32).len.toNat ≤ (sinking four [] 4#32 4#32).build.cap.toNat ∧
      1 ≤ (sinking four [] 4#32 4#32).beginReg.bits.toNat ∧
      (sinking four [] 4#32 4#32).beginReg.bits.toNat ≤ (sinking four [] 4#32 4#32).endReg.bits.toNat ∧
      (sinking four [] 4#32 4#32).endReg.bits.toNat ≤ (sinking four [] 4#32 4#32).len.toNat ∧
      [0xDD#8].length = (sinking four [] 4#32 4#32).endReg.bits.toNat - (sinking four [] 4#32 4#32).beginReg.bits.toNat + 1 ∧
      BytesAt (sinking four [] 4#32 4#32).sink ((sinking four [] 4#32 4#32).beginReg.bits.toNat - 1) [0xDD#8] :=
  ⟨by decide, ⟨by decide, by decide, by decide, by decide, by decide, bytesAt_of (by decide)⟩,
    by decide, by decide, by decide, by decide, by decide, bytesAt_of (by decide)⟩

/-- BEGIN = 0, BEGIN > END, END = LEN + 1: each condition alone. -/
theorem witness_SliceOutOfRangeIsReported : ∀ s ∈ [sinking four [] 0#32 4#32, sinking four [] 3#32 2#32,
      sinking four [] 1#32 5#32],
    bottomOperand .sinkSlice s = none ∧
      (s.beginReg.bits.toNat < 1 ∨ s.endReg.bits.toNat < s.beginReg.bits.toNat ∨ s.len.toNat < s.endReg.bits.toNat) := by
  decide

/-- The three clauses: the whole contents, END < BEGIN and END > LEN, and the empty sink. -/
theorem witness_SliceLaws :
    (∀ s ∈ [sinking [0xAA#8] [] 1#32 1#32, sinking four [] 3#32 2#32, sinking four [] 1#32 5#32, sinking [] [] 1#32 0#32],
      bottomOperand .sinkSlice s = none) ∧
    (1 ≤ (sinking [0xAA#8] [] 1#32 1#32).len.toNat ∧ (sinking [0xAA#8] [] 1#32 1#32).beginReg.bits = 1#32 ∧
      (sinking [0xAA#8] [] 1#32 1#32).endReg.bits = (sinking [0xAA#8] [] 1#32 1#32).len) ∧
    (∀ s ∈ [sinking four [] 3#32 2#32, sinking four [] 1#32 5#32],
      s.endReg.bits.toNat < s.beginReg.bits.toNat ∨ s.len.toNat < s.endReg.bits.toNat) ∧
    (sinking [] [] 1#32 0#32).len = 0#32 ∧ (sinking [] [] 1#32 0#32).beginReg.bits = 1#32 ∧
      (sinking [] [] 1#32 0#32).endReg.bits = 0#32 := by decide

theorem witness_CodecCommandsLeaveTheSink : subBlock .encVarint ≠ .byteSink ∧
    ∃ t, exec .encVarint (valued 300#64) = .next t := ⟨by decide, _, rfl⟩

theorem witness_SinkIsAppendOnly : Instr.sinkAppend ≠ .sinkClear ∧
    ∃ t, exec .sinkAppend (sinking three [0xDD#8] 0#32 0#32) = .next t := ⟨by decide, _, rfl⟩

theorem witness_CommandsNeverWriteOperands : ∃ t, exec .sinkAppend (sinking three [0xDD#8] 0#32 0#32) = .next t := ⟨_, rfl⟩

/-- A success, an error, and a word that is no command. -/
theorem witness_EveryCommandWritesEveryResult :
    (∃ t, issue 0x00000006#32 (buffered walk 2#32) = .next t ∧ t.status = ⟨0x00#8, true⟩) ∧
      (∃ t, issue 0x00000006#32 (buffered walk 6#32) = .next t ∧ t.status ≠ ⟨0x00#8, true⟩ ∧ t.olen = none) ∧
      ∃ t, issue 0x00000007#32 (buffered walk 6#32) = .next t ∧ t.status ≠ ⟨0x00#8, true⟩ ∧ t.olen = none :=
  ⟨⟨_, rfl, by decide⟩, ⟨_, rfl, by decide, rfl⟩, _, rfl, by decide, rfl⟩

/-- A command that fails, and a word that is no command. -/
theorem witness_ErrorsArePrecise :
    (∃ t, issue 0x00000030#32 (sinking three [0xDD#8, 0xEE#8] 0#32 0#32) = .next t ∧ t.status = ⟨0x02#8, true⟩) ∧
      0x02#8 ≠ 0x00#8 ∧ (∃ t, issue 0x00000007#32 (fresh 4#32) = .next t ∧ t.status = ⟨0x05#8, true⟩) ∧ 0x05#8 ≠ 0x00#8 :=
  ⟨⟨_, rfl, by decide⟩, by decide, ⟨_, rfl, by decide⟩, by decide⟩

/-- A command that is no append, and an append that fails. -/
theorem witness_RepeatedCommandsAgree :
    ((∃ t, exec .sinkClear (sinking three [] 0#32 0#32) = .next t) ∧ Instr.sinkClear ≠ .sinkAppend) ∧
      ∃ t, exec .sinkAppend (sinking three [0xDD#8, 0xEE#8] 0#32 0#32) = .next t ∧ t.status ≠ ⟨0x00#8, true⟩ :=
  ⟨⟨⟨_, rfl⟩, by decide⟩, _, rfl, by decide⟩

/-- ENC_VARINT reads VAL alone; OFF holds ⊥ and the two states keep other bits in it. -/
theorem witness_ValuesOfUnwrittenRegistersDoNotMatter :
    SameButBottom (valued 300#64) { valued 300#64 with off := ⟨5#32, false⟩ } ∧
      bottomOperand .encVarint (valued 300#64) = none ∧ (∃ t, exec .encVarint (valued 300#64) = .next t) ∧
      SameButBottom { buffered [] 0#32 with ibufLen := ⟨1#32, true⟩ }
        { buffered [] 0#32 with ibufLen := ⟨1#32, true⟩, val := ⟨9#64, false⟩ } ∧
      bottomOperand .decLen { buffered [] 0#32 with ibufLen := ⟨1#32, true⟩ } = none ∧
      exec .decLen { buffered [] 0#32 with ibufLen := ⟨1#32, true⟩ } = .fault (.unwritten (.byte .ibuf 0)) :=
  ⟨⟨rfl, ⟨rfl, fun _ => rfl⟩, ⟨rfl, fun _ => rfl⟩, ⟨rfl, fun h => by cases h⟩, ⟨rfl, fun _ => rfl⟩, ⟨rfl, fun _ => rfl⟩,
      ⟨rfl, fun _ => rfl⟩, rfl, ⟨rfl, fun _ => rfl⟩, rfl, rfl, rfl, rfl, rfl, rfl, rfl⟩, by decide, ⟨_, rfl⟩,
    ⟨rfl, ⟨rfl, fun _ => rfl⟩, ⟨rfl, fun h => by cases h⟩, ⟨rfl, fun _ => rfl⟩, ⟨rfl, fun _ => rfl⟩, ⟨rfl, fun _ => rfl⟩,
      ⟨rfl, fun _ => rfl⟩, rfl, ⟨rfl, fun _ => rfl⟩, rfl, rfl, rfl, rfl, rfl, rfl, rfl⟩, by decide, rfl⟩

/-- IBUF_LEN is 2 and IBUF[1] was never written. -/
theorem witness_CommandsFaultOnUnwrittenInputOnly : Inv (encoded 2#32) ∧
    exec .unpackUint32 { encoded 2#32 with off := ⟨0#32, true⟩ } = .fault (.unwritten (.byte .ibuf 1)) ∧
    exec .unpackUint32 (encoded 2#32) = .fault (.unwritten (.byte .ibuf 1)) :=
  ⟨encoded_inv 2#32 (by decide) .idle, rfl, rfl⟩

theorem witness_WrittenInputLetsEveryCommandComplete : Inv (encoded 1#32) ∧
    ∀ a, a < (encoded 1#32).ibufLen.bits.toNat → (Mem.read (encoded 1#32).ibuf a).isSome :=
  ⟨encoded_inv 1#32 (by decide) .idle, by decide⟩

/-- One line for each register, and the values at the ends of their ranges: 16 is IBUF_MAX. -/
theorem witness_HostWritesTakeEffect :
    evalExpr (running (.write .val (.const 0)) (fresh 4#32)) (.const 0) = .next (.int 0) ∧
    (∀ r ∈ [OpReg.val, .off, .beginReg, .endReg],
      currentLine (running (.write r (.const (-1))) (fresh 4#32)) = some (.write r (.const (-1)))) ∧
    (currentLine (running (.write .ibufLen (.const 16)) (fresh 4#32)) = some (.write .ibufLen (.const 16)) ∧
      evalExpr (running (.write .ibufLen (.const 16)) (fresh 4#32)) (.const 16) = .next (.int 16) ∧ (0 : Int) ≤ 16 ∧
      (16 : Int) ≤ (fresh 4#32).build.ibufMax.toNat) ∧
    currentLine (running (.writeIbuf (.const 15) (.const 255)) (fresh 4#32)) = some (.writeIbuf (.const 15) (.const 255)) ∧
      evalExpr (running (.writeIbuf (.const 15) (.const 255)) (fresh 4#32)) (.const 15) = .next (.int 15) ∧
      evalExpr (running (.writeIbuf (.const 15) (.const 255)) (fresh 4#32)) (.const 255) = .next (.int 255) ∧
      (0 : Int) ≤ 15 ∧ (15 : Int) < (fresh 4#32).build.ibufMax.toNat :=
  ⟨rfl, by decide, ⟨by decide, rfl, by decide, by decide⟩, by decide, rfl, rfl, by decide, by decide⟩

/-- The first values outside. -/
theorem witness_HostActionsOutsideThePortAreRefused :
    (currentLine (running (.write .ibufLen (.const 17)) (fresh 4#32)) = some (.write .ibufLen (.const 17)) ∧
      evalExpr (running (.write .ibufLen (.const 17)) (fresh 4#32)) (.const 17) = .next (.int 17) ∧
      ((fresh 4#32).build.ibufMax.toNat : Int) < 17) ∧
    (currentLine (running (.writeIbuf (.const 16) (.const 1)) (fresh 4#32)) = some (.writeIbuf (.const 16) (.const 1)) ∧
      evalExpr (running (.writeIbuf (.const 16) (.const 1)) (fresh 4#32)) (.const 16) = .next (.int 16) ∧
      evalExpr (running (.writeIbuf (.const 16) (.const 1)) (fresh 4#32)) (.const 1) = .next (.int 1) ∧
      ((fresh 4#32).build.ibufMax.toNat : Int) ≤ 16) ∧
    currentLine (running (.readObuf 0 (.const 2)) (encoded 1#32)) = some (.readObuf 0 (.const 2)) ∧
      evalExpr (running (.readObuf 0 (.const 2)) (encoded 1#32)) (.const 2) = .next (.int 2) ∧
      (running (.readObuf 0 (.const 2)) (encoded 1#32)).olen = some 2#32 ∧ ((2#32).toNat : Int) ≤ 2 :=
  ⟨⟨by decide, rfl, by decide⟩, ⟨by decide, rfl, rfl, by decide⟩, by decide, rfl, rfl, by decide⟩

/-- A value, the ⊥ a command wrote, and the ⊥ of reset, in each register. -/
theorem witness_HostReadsAreValuesOrModelFaults :
    (∀ r ∈ [HostReg.status, .res, .noff, .olen, .cap, .cmd],
      currentLine (running (.read 0 r) (fresh 4#32)) = some (.read 0 r)) ∧
    ((encoded 1#32).status = ⟨0x00#8, true⟩ ∧ (fresh 4#32).status.written = false) ∧
    ((encoded 1#32).res = none ∧ (fresh 4#32).res = none ∧ { valued 1#64 with res := some 2#64 }.res = some 2#64) ∧
    ((encoded 1#32).noff = none ∧ (fresh 4#32).noff = none ∧ { valued 1#64 with noff := some 2#32 }.noff = some 2#32) ∧
    (encoded 1#32).olen = some 2#32 ∧ (fresh 4#32).olen = none ∧
    { encoded 1#32 with olen := none }.status.written = true ∧ { encoded 1#32 with olen := none }.olen = none := by decide

/-- The last byte below OLEN, and the whole list. -/
theorem witness_HostReadsEveryOutputByte : (Inv (running (.readObuf 0 (.const 1)) (encoded 1#32)) ∧
    (running (.readObuf 0 (.const 1)) (encoded 1#32)).olen = some 2#32 ∧
    evalExpr (running (.readObuf 0 (.const 1)) (encoded 1#32)) (.const 1) = .next (.int 1) ∧
    currentLine (running (.readObuf 0 (.const 1)) (encoded 1#32)) = some (.readObuf 0 (.const 1)) ∧
    (0 : Int) ≤ 1 ∧ (1 : Int) < (2#32).toNat) ∧
    Inv (running (.read 0 .obuf) (encoded 1#32)) ∧
    currentLine (running (.read 0 .obuf) (encoded 1#32)) = some (.read 0 .obuf) :=
  ⟨⟨encoded_inv 1#32 (by decide) _, rfl, rfl, rfl, by decide, by decide⟩, encoded_inv 1#32 (by decide) _, rfl⟩

/-- Sixteen bytes fill IBUF. -/
theorem witness_BufferLinesWriteBytesAndLength :
    currentLine (running (.setIbuf (.bytes (List.replicate 16 0x80#8))) (fresh 4#32)) =
      some (.setIbuf (.bytes (List.replicate 16 0x80#8))) ∧
    evalExpr (running (.setIbuf (.bytes (List.replicate 16 0x80#8))) (fresh 4#32)) (.bytes (List.replicate 16 0x80#8)) =
      .next (.bytes (List.replicate 16 0x80#8)) ∧
    (List.replicate 16 0x80#8).length ≤ (fresh 4#32).build.ibufMax.toNat := ⟨rfl, rfl, by decide⟩

theorem witness_CopyMovesOutputToInput : Inv (running .copyObuf (encoded 1#32)) ∧
    currentLine (running .copyObuf (encoded 1#32)) = some .copyObuf ∧
    (running .copyObuf (encoded 1#32)).olen = some 2#32 ∧
    (2#32).toNat ≤ (running .copyObuf (encoded 1#32)).build.ibufMax.toNat :=
  ⟨encoded_inv 1#32 (by decide) _, rfl, rfl, by decide⟩

/-- Two bytes of output fit a sink of 5 bytes that holds three. -/
theorem witness_AppendObufAddsTheOutput : ∃ s : State, Inv s ∧ s.olen = some 2#32 ∧
    (2#32).toNat ≤ s.build.ibufMax.toNat ∧ s.len.toNat + (2#32).toNat ≤ s.build.cap.toNat := by
  refine ⟨{ encoded 1#32 with build := { cap := 5#32, ibufMax := 16#32 } }, ?_, rfl, by decide, by decide⟩
  have h := encoded_inv 1#32 (by decide) .idle
  exact ⟨⟨by decide, by decide, by decide, by decide, by decide, by decide⟩,
    ⟨h.lengths.bufferFits, by decide, by decide⟩,
    ⟨h.results.legal, h.results.errorBottom, h.results.obufBottom, h.results.obufBytes, h.results.issued⟩⟩

/-- A host at `if STATUS == 0x00 goto 1`, whose label is the next line but one. -/
def branching (status : Byte) : State :=
  { fresh 4#32 with
    cmd := ⟨1#32, true⟩, status := ⟨status, true⟩
    host := { program := [.branch (.cmp .eq (.reg .status) (.const 0)) 1, .halt, .label 1], pos := 0, vars := [] } }

theorem witness_BranchesFollowTheirCondition :
    (∀ c, currentLine (branching c) = some (.branch (.cmp .eq (.reg .status) (.const 0)) 1)) ∧
      evalCond (branching 0x00#8) (.cmp .eq (.reg .status) (.const 0)) = .next true ∧
      findLabel (branching 0x00#8).host.program 1 = some 2 ∧
      evalCond (branching 0x01#8) (.cmp .eq (.reg .status) (.const 0)) = .next false ∧
      (∃ s : State, findLabel s.host.program 1 = some 1 ∧ currentLine s = some (.goto 1)) :=
  ⟨fun _ => rfl, rfl, rfl, rfl,
    { fresh 4#32 with host := { program := [.goto 1, .label 1], pos := 0, vars := [] } }, rfl, rfl⟩

theorem witness_WellFormedProgramsJumpToTheirLabels : programWellFormed (branching 0x00#8).host.program = true ∧
    ∃ t, step (branching 0x00#8) = .next t := ⟨by decide, _, rfl⟩

theorem witness_IdleHostChangesNothing : currentLine (running .halt (fresh 4#32)) = some .halt ∧
    currentLine State.reset = none := ⟨rfl, rfl⟩

theorem witness_ResetLeavesTheSpecsValues : State.reset = State.reset ∧
    assertReset (encoded 1#32) = assertReset (encoded 1#32) := ⟨rfl, rfl⟩

theorem witness_StepKeepsTheInvariant : Inv (running (.word 0x00000030#32) (encoded 1#32)) ∧
    ∃ t, step (running (.word 0x00000030#32) (encoded 1#32)) = .next t ∧ t.len = 4#32 :=
  ⟨encoded_inv 1#32 (by decide) _, _, rfl, by decide⟩

theorem witness_BuildNeverChanges : ∃ t, step (running (.word 0x00000030#32) (encoded 1#32)) = .next t := ⟨_, rfl⟩

/-- A command, an illegal word, and a mnemonic line. -/
theorem witness_IssuingLeavesOperandsAlone :
    (currentLine (running (.word 0x00000030#32) (encoded 1#32)) = some (.word 0x00000030#32) ∧
      ∃ t, step (running (.word 0x00000030#32) (encoded 1#32)) = .next t) ∧
    (currentLine (running (.word 0x00000007#32) (encoded 1#32)) = some (.word 0x00000007#32) ∧
      ∃ t, step (running (.word 0x00000007#32) (encoded 1#32)) = .next t) ∧
    encode .sinkClear = 0x00000034#32 ∧
      currentLine (running (.command .sinkClear) (encoded 1#32)) = some (.command .sinkClear) ∧
      ∃ t, step (running (.command .sinkClear) (encoded 1#32)) = .next t :=
  ⟨⟨rfl, _, rfl⟩, ⟨rfl, _, rfl⟩, by decide, rfl, _, rfl⟩

/-- The ends of the domains of bits64 and bits32. -/
theorem witness_ConversionsReinterpretAndWiden :
    ((-2 ^ 63 : Int) ≤ -2 ^ 63 ∧ (-2 ^ 63 : Int) < 2 ^ 64) ∧ ((-2 ^ 63 : Int) ≤ 2 ^ 64 - 1 ∧ (2 ^ 64 - 1 : Int) < 2 ^ 64) ∧
      ((-2 ^ 31 : Int) ≤ -2 ^ 31 ∧ (-2 ^ 31 : Int) < 2 ^ 32) ∧ (-2 ^ 31 : Int) ≤ 2 ^ 32 - 1 ∧
      (2 ^ 32 - 1 : Int) < 2 ^ 32 := by decide

end Sys2Proof.Tests
end

section
/-! The conversions of R13, one law each, and O60, which collects them. -/

namespace Sys2Proof.Machine

open Sys2Proof

/-- A pattern read as an unsigned integer is the integer's own pattern. -/
@[simp] theorem ofInt_toNat_self {w : Nat} (p : BitVec w) : BitVec.ofInt w p.toNat = p := by
  rw [BitVec.ofInt_natCast, BitVec.ofNat_toNat, BitVec.setWidth_eq]

/-- The pattern of an integer is the integer modulo 2^w. -/
theorem ofInt_toNat_cast (w : Nat) (n : Int) : ((BitVec.ofInt w n).toNat : Int) = n % 2 ^ w := by
  have h : 0 ≤ n % 2 ^ w := Int.emod_nonneg _ (by positivity)
  rw [BitVec.toNat_ofInt, Nat.cast_pow, Nat.cast_ofNat, Int.toNat_of_nonneg h]

/-- Widening to 64 bits by copying bit 31 adds ones in bits 63 to 32 exactly when bit 31 is set. -/
theorem signExtend64_toNat (w : Word) :
    (w.signExtend 64).toNat = if w.toNat < 2 ^ 31 then w.toNat else w.toNat + (2 ^ 64 - 2 ^ 32) := by
  have hw : w.toNat % 2 ^ 64 = w.toNat := Nat.mod_eq_of_lt (by omega)
  rw [BitVec.toNat_signExtend, BitVec.toNat_setWidth, hw, BitVec.msb_eq_decide]
  by_cases h : w.toNat < 2 ^ 31
  · rw [if_pos h, if_neg (by simpa using h), Nat.add_zero]
  · rw [if_neg h, if_pos (by simpa using h)]

theorem Conv.s32_apply_toNat (w : Word) : Conv.s32.apply w.toNat = w.toInt := by simp [Conv.apply]

theorem Conv.s64_apply_toNat (d : DWord) : Conv.s64.apply d.toNat = d.toInt := by simp [Conv.apply]

theorem Conv.u32_apply_toNat (w : Word) : Conv.u32.apply w.toNat = w.toNat := by simp [Conv.apply]

theorem Conv.u64_apply_toNat (d : DWord) : Conv.u64.apply d.toNat = d.toNat := by simp [Conv.apply]

/-- Outside R13's domain as well: the model takes any integer modulo 2^32 (log entry 18). -/
theorem Conv.bits32_apply (n : Int) : Conv.bits32.apply n = n % 2 ^ 32 := ofInt_toNat_cast 32 n

/-- Outside R13's domain as well: the model takes any integer modulo 2^64 (log entry 18). -/
theorem Conv.bits64_apply (n : Int) : Conv.bits64.apply n = n % 2 ^ 64 := ofInt_toNat_cast 64 n

theorem Conv.zext64_apply_toNat (d : DWord) : Conv.zext64.apply d.toNat = d.toNat := by simp [Conv.apply]

theorem Conv.sext64_apply_toNat (w : Word) : Conv.sext64.apply w.toNat =
    if w.toNat < 2 ^ 31 then (w.toNat : Int) else w.toNat + (2 ^ 64 - 2 ^ 32) := by
  have h : Conv.sext64.apply w.toNat = ((w.signExtend 64).toNat : Int) := by simp [Conv.apply]
  rw [h, signExtend64_toNat]
  split <;> simp

/-- Settles O60: each conjunct is the law of one conversion. -/
theorem conversionsReinterpretAndWiden : Obligations.ConversionsReinterpretAndWiden := fun w d =>
  ⟨⟨Conv.s32_apply_toNat w, Conv.s64_apply_toNat d⟩, ⟨Conv.u32_apply_toNat w, Conv.u64_apply_toNat d⟩,
    fun n _ _ => Conv.bits64_apply n, fun n _ _ => Conv.bits32_apply n, Conv.zext64_apply_toNat d,
    Conv.sext64_apply_toNat w⟩

end Sys2Proof.Machine
end

section
/-! OBUF and OLEN in the terms of `Safety.HoldsBytes` (R63), and what keeps the parts of the invariant that speak of the
spaces and of LEN. -/

namespace Sys2Proof.Safety

open Sys2Proof Sys2Proof.Machine

/-- OLEN holds a value exactly where bytes were given. -/
theorem HoldsBytes.olen_isSome {t : State} {o : Option (List Byte)} (h : HoldsBytes t o) :
    t.olen.isSome = o.isSome := by
  cases o <;> simp [h.1]

/-- OBUF holds no byte where OLEN holds no value (R63). -/
theorem HoldsBytes.read_of_olen_none {t : State} {o : Option (List Byte)} (h : HoldsBytes t o) (ho : t.olen = none)
    (a : Nat) : Mem.read t.obuf a = none := by
  cases o with
  | none => exact h.2 a
  | some bs => simp [h.1] at ho

/-- OBUF holds bytes exactly below OLEN (R63). -/
theorem HoldsBytes.read_isSome {t : State} {o : Option (List Byte)} (h : HoldsBytes t o)
    (hs : ∀ bs, o = some bs → bs.length < 2 ^ 32) {n : Word} (ho : t.olen = some n) (a : Nat) :
    (Mem.read t.obuf a).isSome ↔ a < n.toNat := by
  cases o with
  | none => simp [h.1] at ho
  | some bs =>
    obtain ⟨hlen, hread⟩ := h
    obtain rfl : BitVec.ofNat 32 bs.length = n := Option.some.inj (hlen.symm.trans ho)
    rw [hread, BitVec.toNat_ofNat, Nat.mod_eq_of_lt (hs bs rfl)]
    simp

/-- The invariant speaks of the host's side only where it bounds IBUF and IBUF_LEN (R35, R60). -/
theorem Inv.of_host_side {s : State} (h : Inv s) {m : Mem} {n : Reg 32} (hwf : Mem.wf m)
    (hm : Mem.below m s.build.ibufMax.toNat) (hn : n.bits.toNat ≤ s.build.ibufMax.toNat) (v : Reg 64) (o b e : Reg 32)
    (host : HostState) :
    Inv { s with val := v, off := o, beginReg := b, endReg := e, ibufLen := n, ibuf := m, host := host } where
  spaces := ⟨hwf, h.spaces.sinkWf, h.spaces.obufWf, hm, h.spaces.sinkBelow, h.spaces.obufBelow⟩
  lengths := ⟨hn, h.lengths.lenLeCap, h.lengths.contents⟩
  results := ⟨h.results.legal, h.results.errorBottom, h.results.obufBottom, h.results.obufBytes, h.results.issued⟩

/-- Appending to the sink within CAP keeps the spaces in form and size (R60, R161). -/
theorem SpacesInv.append {s : State} (h : SpacesInv s) {bs : List Byte}
    (hc : s.len.toNat + bs.length ≤ s.build.cap.toNat) (n : Word) :
    SpacesInv (setLen n (writeSink s.len.toNat bs s)) :=
  ⟨h.ibufWf, Mem.wf_writeList h.sinkWf _ _, h.obufWf, h.ibufBelow, Mem.below_writeList h.sinkBelow hc, h.obufBelow⟩

/-- LEN grows by the bytes appended, and each of them is written (R62, R161). -/
theorem LengthsInv.append {s : State} (h : LengthsInv s) {bs : List Byte} {n : Word} (hn : bs.length = n.toNat)
    (hc : s.len.toNat + n.toNat ≤ s.build.cap.toNat) :
    LengthsInv (setLen (s.len + n) (writeSink s.len.toNat bs s)) := by
  have hsum : (s.len + n).toNat = s.len.toNat + n.toNat := by
    have := s.build.cap.isLt
    rw [BitVec.toNat_add, Nat.mod_eq_of_lt (by omega)]
  refine ⟨h.bufferFits, by simpa [hsum] using hc, fun a ha => ?_⟩
  simp only [setLen_len, hsum] at ha
  simp only [setLen_sink, writeSink_sink, Mem.read_writeList]
  split
  · have hlt : a - s.len.toNat < bs.length := by omega
    simpa using hlt
  · exact h.contents a (by omega)

end Sys2Proof.Safety
end

section
/-! How a command ends, in the terms of `Safety.Ended`: what each of the result registers receives (R44, R48), and the
frame. O35, O36, O58 and O59 follow. -/

namespace Sys2Proof.Machine

open Sys2Proof Sys2Proof.Safety

/-- The host's next line is what a step runs. -/
theorem step_of_currentLine {s : State} {x : Line} (h : currentLine s = some x) : step s = runLine x s := by
  simp [step, h]

theorem Status.code_eq_zero {st : Status} : st.code = 0x00#8 ↔ st = .ok := by cases st <;> decide

/-- The status of a completed command and the results it gives fit what its word decodes to (R44, R48, R186); bytes are few
enough for OLEN to count them. -/
structure Reports (d : Decoded) (st : Status) (r : Results) : Prop where
  error : st ≠ .ok → r = {}
  ok : st = .ok → ∃ i, d = .instr i ∧ (r.res.isSome ↔ .res ∈ resultsOf i) ∧ (r.noff.isSome ↔ .noff ∈ resultsOf i) ∧
    (r.bytes.isSome ↔ .olen ∈ resultsOf i)
  size : ∀ bs, r.bytes = some bs → bs.length < 2 ^ 32

/-- An error reports no result (R186). -/
theorem Reports.of_error {d : Decoded} {st : Status} (h : st ≠ .ok) : Reports d st {} where
  error _ := rfl
  ok hst := absurd hst h
  size := by rintro bs ⟨⟩

/-- A success reports the results of R48. -/
theorem Reports.of_fits {i : Instr} {s : State} {r : Results} (h : Fits i s r) : Reports (.instr i) .ok r where
  error hst := absurd rfl hst
  ok _ := ⟨i, rfl, by simp [h.res], by simp [h.noff], by simp [h.bytes]⟩
  size bs hbs := by
    have := s.len.isLt
    rcases h.size bs hbs with h | h <;> omega

/-- SINK_APPEND and SINK_CLEAR report no result (R48). -/
theorem Reports.of_no_results {i : Instr} (h : resultsOf i = []) : Reports (.instr i) .ok {} where
  error hst := absurd rfl hst
  ok _ := ⟨i, rfl, by simp [h]⟩
  size := by rintro bs ⟨⟩

/-- LEN and SINK are in no command's frame. -/
theorem commandFrame_setLen (n : Word) (s : State) : CommandFrame s (setLen n s) :=
  ⟨rfl, rfl, rfl, rfl, rfl, rfl, rfl, rfl, rfl⟩

theorem commandFrame_append (n : Word) (a : Nat) (bs : List Byte) (s : State) :
    CommandFrame s (setLen n (writeSink a bs s)) := ⟨rfl, rfl, rfl, rfl, rfl, rfl, rfl, rfl, rfl⟩

/-- A command that answers has ended, with results that fit it. -/
theorem exec_ended {i : Instr} {s t : State} (h : exec i s = .next t) :
    ∃ st r, Ended s t st.code r.res r.noff r.bytes ∧ Reports (.instr i) st r := by
  cases exec_ends h with
  | error st hst => exact ⟨st, {}, ended_finish st {} s, .of_error hst⟩
  | results r hr => exact ⟨.ok, r, ended_finish .ok r s, .of_fits hr⟩
  | append bs hi =>
    subst hi
    exact ⟨.ok, {}, ended_finish_of_frame (commandFrame_append _ _ _ s) .ok {}, .of_no_results rfl⟩
  | clear hi =>
    subst hi
    exact ⟨.ok, {}, ended_finish_of_frame (commandFrame_setLen _ s) .ok {}, .of_no_results rfl⟩

/-- Everything the issue of a word can do: run the command it decodes to, or report why it is none (R85 to R87). -/
theorem issue_cases (w : Word) (s : State) :
    (∃ i, decode w = .instr i ∧ issue w s = exec i (setCmd w s)) ∨
      ∃ st, st ≠ .ok ∧ issue w s = .next (finish st {} (setCmd w s)) := by
  unfold issue
  cases decode w with
  | instr i => exact .inl ⟨i, rfl, rfl⟩
  | illegalCommand => exact .inr ⟨.illegalCommand, by decide, rfl⟩
  | unsupportedKind => exact .inr ⟨.unsupportedKind, by decide, rfl⟩

/-- A word whose issue answers has ended, with results that fit it. -/
theorem issue_ended {w : Word} {s t : State} (h : issue w s = .next t) :
    ∃ st r, Ended (setCmd w s) t st.code r.res r.noff r.bytes ∧ Reports (decode w) st r := by
  rcases issue_cases w s with ⟨i, hd, hi⟩ | ⟨st, hst, hi⟩ <;> rw [hi] at h
  · rw [hd]
    exact exec_ended h
  · cases h
    exact ⟨st, {}, ended_finish st {} _, .of_error hst⟩

/-- Settles O35: the frame of the command's end. -/
theorem commandsNeverWriteOperands : Obligations.CommandsNeverWriteOperands := by
  intro i s t h
  obtain ⟨st, r, hended, -⟩ := exec_ended h
  exact hended.frame

/-- Settles O36: the results the issue's end reports, and OBUF as `HoldsBytes` says. -/
theorem everyCommandWritesEveryResult : Obligations.EveryCommandWritesEveryResult := by
  intro w s t h
  obtain ⟨st, r, ⟨-, hstatus, hres, hnoff, hbytes⟩, hrep⟩ := issue_ended h
  have hok : t.status = ⟨0x00#8, true⟩ ↔ st = .ok := by simp [hstatus, Status.code_eq_zero]
  have holen := hbytes.olen_isSome
  refine ⟨⟨st, hstatus⟩, fun hst => ?_, fun hst => ?_, hbytes.read_of_olen_none,
    fun n hn => hbytes.read_isSome hrep.size hn⟩
  · simpa only [hres, hnoff, holen] using hrep.ok (hok.1 hst)
  · obtain rfl := hrep.error fun h => hst (hok.2 h)
    exact ⟨hres, hnoff, by simpa using holen⟩

/-- Settles O58: every move of a step but an issue writes named fields other than the build, and an issue has it in its
frame. -/
theorem buildNeverChanges : Obligations.BuildNeverChanges := by
  refine ⟨fun s t h => ?_, assertReset_build⟩
  cases step_moves h with
  | issue w t h =>
    obtain ⟨st, r, hended, -⟩ := issue_ended h
    exact hended.frame.build
  | _ => rfl

/-- Settles O59: both lines issue the word from the state with the host at its next line. -/
theorem issuingLeavesOperandsAlone : Obligations.IssuingLeavesOperandsAlone := by
  intro s t w hline h
  have hissue : issue w (nextLine s) = .next t := by
    rcases hline with hline | ⟨i, rfl, hline⟩ <;> rwa [step_of_currentLine hline] at h
  obtain ⟨st, r, hended, -⟩ := issue_ended hissue
  exact ⟨hended.frame, st, hended.status⟩

end Sys2Proof.Machine
end

section
/-! The invariant: it holds at reset, and every step keeps it (O56, O57). -/

namespace Sys2Proof.Machine

open Sys2Proof Sys2Proof.Safety

/-- A finished command meets the results' part of the invariant whatever the results before it (R44, R63, R186). -/
theorem inv_finish {m : State} {st : Status} {r : Results} (hs : SpacesInv m) (hl : LengthsInv m)
    (hcmd : m.cmd.written = true) (herr : st ≠ .ok → r = {})
    (hsize : ∀ bs, r.bytes = some bs → bs.length ≤ spaceSize m.build .obuf) : Inv (finish st r m) := by
  have hmax : spaceSize m.build .obuf < 2 ^ 32 := by
    have := m.build.cap.isLt
    simp only [spaceSize_obuf]
    omega
  have hbytes : HoldsBytes (finish st r m) r.bytes := (ended_finish st r m).bytes
  refine ⟨⟨hs.ibufWf, hs.sinkWf, Mem.wf_ofListFrom _ _, hs.ibufBelow, hs.sinkBelow, fun c hc => ?_⟩,
    ⟨hl.bufferFits, hl.lenLeCap, hl.contents⟩, ⟨fun _ => ⟨st, rfl⟩, fun hst => ?_, fun ho => ?_, fun n hn => ?_, hcmd⟩⟩
  · have hlt := (Mem.mem_ofListFrom hc).2
    cases hb : r.bytes with
    | none => simp [hb] at hlt
    | some bs =>
      have := hsize bs hb
      simp only [hb, Option.getD_some] at hlt
      simp only [finish_build]
      omega
  · have hst : st ≠ .ok := by rintro rfl; exact hst rfl
    obtain rfl := herr hst
    exact ⟨rfl, rfl, rfl⟩
  · have hb : r.bytes = none := by simpa using ho
    simp [hb, Mem.ofListFrom]
  · refine ⟨?_, hbytes.read_isSome (fun bs hb => (hsize bs hb).trans_lt hmax) hn⟩
    obtain ⟨bs, hb, rfl⟩ := Option.map_eq_some_iff.1 hn
    exact (Nat.mod_le _ _).trans (hsize bs hb)

/-- A command that answers keeps the invariant, once a word is in CMD. -/
theorem exec_inv {i : Instr} {s t : State} (hs : SpacesInv s) (hl : LengthsInv s) (hcmd : s.cmd.written = true)
    (h : exec i s = .next t) : Inv t := by
  cases exec_ends h with
  | error st hst => exact inv_finish hs hl hcmd (fun _ => rfl) (by rintro bs ⟨⟩)
  | results r hr =>
    refine inv_finish hs hl hcmd (fun h => absurd rfl h) fun bs hbs => ?_
    have := hl.lenLeCap
    simp only [spaceSize_obuf]
    rcases hr.size bs hbs with h | h <;> omega
  | append bs hi hn hc hb =>
    exact inv_finish (hs.append (hn ▸ hc) _) (hl.append hn hc) hcmd (fun _ => rfl) (by rintro bs ⟨⟩)
  | clear hi =>
    exact inv_finish (m := setLen 0#32 s) ⟨hs.ibufWf, hs.sinkWf, hs.obufWf, hs.ibufBelow, hs.sinkBelow, hs.obufBelow⟩
      ⟨hl.bufferFits, Nat.zero_le _, fun a ha => absurd ha (Nat.not_lt_zero a)⟩ hcmd (fun _ => rfl) (by rintro bs ⟨⟩)

/-- The issue of a word keeps the invariant. -/
theorem issue_inv {w : Word} {s t : State} (h : Inv s) (hi : issue w s = .next t) : Inv t := by
  obtain ⟨⟨h1, h2, h3, h4, h5, h6⟩, ⟨h7, h8, h9⟩, -⟩ := h
  have hs : SpacesInv (setCmd w s) := ⟨h1, h2, h3, h4, h5, h6⟩
  have hl : LengthsInv (setCmd w s) := ⟨h7, h8, h9⟩
  rcases issue_cases w s with ⟨i, -, he⟩ | ⟨st, hst, he⟩ <;> rw [he] at hi
  · exact exec_inv hs hl rfl hi
  · cases hi
    exact inv_finish hs hl rfl (fun _ => rfl) (by rintro bs ⟨⟩)

/-- The state after reset meets the invariant in every build, whatever the host (R49). -/
theorem inv_resetOf (b : Build) (host : HostState) : Inv { State.resetOf b with host := host } where
  spaces := ⟨.nil, .nil, .nil, by rintro c ⟨⟩, by rintro c ⟨⟩, by rintro c ⟨⟩⟩
  lengths := ⟨Nat.zero_le _, Nat.zero_le _, fun a ha => absurd ha (Nat.not_lt_zero a)⟩
  results := ⟨fun h => (by cases h), fun _ => ⟨rfl, rfl, rfl⟩, fun _ => rfl, fun n hn => (by cases hn), rfl⟩

/-- Settles O57: a step moves the host's side within its bounds, or issues a word. -/
theorem stepKeepsTheInvariant : Obligations.StepKeepsTheInvariant := by
  intro s t h hstep
  have hwf := h.spaces.ibufWf
  have hbelow := h.spaces.ibufBelow
  have hfits := h.lengths.bufferFits
  cases step_moves hstep with
  | host | val | off | beginReg | endReg => exact h.of_host_side hwf hbelow hfits ..
  | ibufLen v hv => exact h.of_host_side hwf hbelow hv ..
  | ibuf a b ha => exact h.of_host_side (Mem.wf_write hwf a b) (Mem.below_write hbelow ha b) hfits ..
  | buffer bs hbs =>
    refine h.of_host_side (Mem.wf_writeList hwf 0 bs) (Mem.below_writeList hbelow (by simpa using hbs)) ?_ ..
    exact (Nat.mod_le _ _).trans hbs
  | issue w t hi => exact issue_inv (h.of_host_side hwf hbelow hfits ..) hi

/-- Settles O56: both states are a reset state with some host. -/
theorem resetMeetsTheInvariant : Obligations.ResetMeetsTheInvariant :=
  ⟨inv_resetOf Build.default .idle, fun s => inv_resetOf s.build s.host⟩

end Sys2Proof.Machine
end

section
/-! Where a command's byte reads can fault, and the two statements about the model fault of an input byte (O13, O42). -/

namespace Sys2Proof.Machine

open Sys2Proof Sys2Proof.Safety

variable {s : State} {e : Fault}

/-- How many bytes of a space a command reads at most: the caller's buffer (R102, R149, R161), the sink's contents (R62),
and nothing of OBUF. -/
def inputLength (s : State) : Space → Nat
  | .ibuf => s.ibufLen.bits.toNat
  | .sink => s.len.toNat
  | .obuf => 0

/-- The fault is that of a byte read inside a command's input. -/
def FaultsInside (s : State) (e : Fault) : Prop := ∃ sp a, a < inputLength s sp ∧ readByte sp a s = .fault e

/-- Reading bytes of the input, and going on without a fault. -/
theorem faultsInside_of_readBytes {sp : Space} {a n : Nat} {f : List Byte → Host.Outcome State Fault Refusal}
    (h : andThen (readBytes sp s a n) f = .fault e) (hf : ∀ bs, f bs ≠ .fault e)
    (hn : ∀ k, k < n → a + k < inputLength s sp) : FaultsInside s e := by
  rcases andThen_eq_fault.1 h with h | ⟨bs, -, h⟩
  · obtain ⟨k, hk, h⟩ := readBytes_eq_fault h
    exact ⟨sp, a + k, hn k hk, h⟩
  · exact absurd h (hf bs)

/-- A scan reads inside the buffer, and what follows it is told a length that ends there (R102). -/
theorem faultsInside_of_scan {found : Word → Nat → Host.Outcome State Fault Refusal} (h : scanBody s found = .fault e)
    (hf : ∀ n, s.off.bits.toNat + n ≤ s.ibufLen.bits.toNat → found s.off.bits n = .fault e → FaultsInside s e) :
    FaultsInside s e := by
  rcases scanBody_cases s found with ⟨n, -, -, hn, -, -, h'⟩ | ⟨-, h'⟩ | ⟨j, e', -, hj, -, hr, h'⟩ <;> rw [h'] at h
  · exact hf n hn h
  · cases h
  · cases h
    exact ⟨.ibuf, _, hj, hr⟩

/-- UNPACK reads no byte past the remainder (R149). -/
theorem faultsInside_of_unpack {k : Kind} (h : unpackBody k s = .fault e) : FaultsInside s e := by
  refine faultsInside_of_readBytes h (fun bs h => by cases h) fun j hj => ?_
  simp only [remaining, inputLength] at hj ⊢
  omega

/-- Every fault of a command is that of a byte read inside the buffer or the sink's contents (R199). -/
theorem exec_faultsInside {i : Instr} (h : exec i s = .fault e) : FaultsInside s e := by
  cases i
  case decLen =>
    simp only [exec, execDecLen] at h
    exact faultsInside_of_scan h fun n hn h => by cases h
  case decVarint | decSvarint =>
    all_goals
      exact faultsInside_of_scan (h : scanBody s (decodeFound s) = _) fun n hn h =>
        faultsInside_of_readBytes h (fun bs h => by cases h) fun k hk => by simp only [inputLength]; omega
  case rawToken =>
    simp only [exec, execRawToken] at h
    exact faultsInside_of_scan h fun n hn h =>
      faultsInside_of_readBytes h (fun bs h => by cases h) fun k hk => by simp only [inputLength]; omega
  case unpackInt32 | unpackUint32 | unpackFloat32 | unpackInt64 | unpackUint64 | unpackFloat64 =>
    all_goals exact faultsInside_of_unpack h
  case sinkAppend =>
    simp only [exec, execSinkAppend, readIbufLen, readOperand_eq, andThen_next] at h
    split at h
    · cases h
    · exact faultsInside_of_readBytes h (fun bs h => by cases h) fun k hk => by simp only [inputLength]; omega
  case sinkBytes => exact faultsInside_of_readBytes h (fun bs h => by cases h) fun k hk => by simp only [inputLength]; omega
  case sinkSlice =>
    simp only [exec, execSinkSlice, readBegin, readEnd, readOperand_eq, andThen_next] at h
    split at h
    · cases h
    · exact faultsInside_of_readBytes h (fun bs h => by cases h) fun k hk => by simp only [inputLength]; omega
  all_goals cases h

/-- A byte read inside the space faults only on ⊥ (R46). -/
theorem readByte_fault_inside {sp : Space} {a : Nat} (ha : a < spaceSize s.build sp) (h : readByte sp a s = .fault e) :
    e = .unwritten (.byte sp a) ∧ Mem.read (s.space sp) a = none := by
  rcases readByte_eq_fault h with ⟨he, -, hm⟩ | ⟨-, hout⟩
  · exact ⟨he, hm⟩
  · omega

/-- Settles O42: the invariant puts IBUF_LEN and LEN inside the spaces and leaves no byte of the sink's contents unwritten. -/
theorem commandsFaultOnUnwrittenInputOnly : Obligations.CommandsFaultOnUnwrittenInputOnly := by
  rintro i s e ⟨-, ⟨hfits, hcap, hcontents⟩, -⟩ h
  obtain ⟨sp, a, ha, hr⟩ := exec_faultsInside h
  cases sp with
  | ibuf =>
    obtain ⟨he, hm⟩ := readByte_fault_inside (sp := .ibuf) (lt_of_lt_of_le ha hfits) hr
    exact ⟨a, he, ha, hm⟩
  | sink =>
    obtain ⟨-, hm⟩ := readByte_fault_inside (sp := .sink) (lt_of_lt_of_le ha hcap) hr
    have hw := hcontents a ha
    rw [show Mem.read s.sink a = none from hm] at hw
    cases hw
  | obuf => exact absurd ha (Nat.not_lt_zero a)

/-- A scan that passes every byte before index `k` faults as the read at `k` does (R102). -/
theorem scanBody_fault {k : Nat} (hk : k < 10) (hin : s.off.bits.toNat + k < s.ibufLen.bits.toNat)
    (hp : ∀ m, m < k → Passes s s.off.bits.toNat m) (hr : readByte .ibuf (s.off.bits.toNat + k) s = .fault e)
    (found : Word → Nat → Host.Outcome State Fault Refusal) : scanBody s found = .fault e := by
  have hscan : scanLen s s.off.bits s.ibufLen.bits = .fault e :=
    scanLoop_fault (Nat.zero_le k) (by omega) (by unfold remaining; omega) (fun m _ hm => hp m hm) hr
  simp [scanBody, readOff, readIbufLen, hscan]

/-- The four scanning commands begin with the scan (R102). -/
theorem exec_eq_scanBody {i : Instr} (hi : i = .decLen ∨ i = .decVarint ∨ i = .decSvarint ∨ i = .rawToken) (s : State) :
    ∃ found, exec i s = scanBody s found := by
  rcases hi with rfl | rfl | rfl | rfl
  all_goals
    simp only [exec, execDecLen, execDecVarint, execDecSvarint, execRawToken]
    exact ⟨_, rfl⟩

/-- Settles O13: the scan passes the bytes before the one never written, and faults on that one. -/
theorem scanOfAnUnwrittenByteFaults : Obligations.ScanOfAnUnwrittenByteFaults := by
  intro s k i hi _ hfits hk hin hpass hnone
  have hmax : s.off.bits.toNat + k < s.build.ibufMax.toNat := hin.trans_le hfits
  have hp : ∀ m, m < k → Passes s s.off.bits.toNat m := fun m hm =>
    let ⟨b, hread, hbit⟩ := hpass m hm
    ⟨b, readByte_eq_next.2 ⟨show _ < s.build.ibufMax.toNat by omega, hread⟩, hbit⟩
  obtain ⟨found, hexec⟩ := exec_eq_scanBody hi s
  rw [hexec]
  exact scanBody_fault hk hin hp (readByte_bottom (sp := .ibuf) hmax hnone) found

end Sys2Proof.Machine
end

section
/-! The host's port: each write of an operand register or of IBUF, each read, and each refusal (O44 to O47), and the values
of reset (O54). -/

namespace Sys2Proof.Machine

open Sys2Proof Sys2Proof.Safety

variable {s : State}

/-- The step at a line `REG := expr` whose expression is a number. -/
theorem step_write {r : OpReg} {f : Expr} {v : Int} (hf : evalExpr s f = .next (.int v))
    (hline : currentLine s = some (.write r f)) : step s = hostWrite r v (nextLine s) := by
  simp [step_of_currentLine hline, runLine, evalNumber_eq_next.2 hf]

/-- The step at a line that writes IBUF[i] (R50). -/
theorem step_writeIbuf {f g : Expr} {k v : Int} (hf : evalExpr s f = .next (.int k))
    (hg : evalExpr s g = .next (.int v)) (hline : currentLine s = some (.writeIbuf f g)) :
    step s = hostWriteIbuf k v (nextLine s) := by
  simp [step_of_currentLine hline, runLine, evalNumber_eq_next.2 hf, evalNumber_eq_next.2 hg]

/-- The step at a line `t := REG`. -/
theorem step_read {x : Nat} {r : HostReg} (hline : currentLine s = some (.read x r)) :
    step s = andThen (hostRead r s) fun v => .next (setVar x v (nextLine s)) := step_of_currentLine hline

/-- The step at a line that reads OBUF[i] (R50). -/
theorem step_readObuf {x : Nat} {f : Expr} {k : Int} (hf : evalExpr s f = .next (.int k))
    (hline : currentLine s = some (.readObuf x f)) :
    step s = andThen (hostReadObuf k s) fun b => .next (setVar x (.int b.toNat) (nextLine s)) := by
  simp [step_of_currentLine hline, runLine, evalNumber_eq_next.2 hf]

/-- While OLEN holds `n`, the host reads OBUF[k] below `n` and is refused it elsewhere (R50, R52). -/
theorem hostReadObuf_of_olen {n : Word} (h : s.olen = some n) (k : Int) :
    hostReadObuf k s = if 0 ≤ k ∧ k < n.toNat then readByte .obuf k.toNat s else .refused (.obufIndexOutside k) := by
  simp [hostReadObuf, hostReadOlen, h, readResult]

/-- While OLEN holds `n`, the host's output is the first `n` bytes of OBUF (R41). -/
theorem hostReadOutput_of_olen {n : Word} (h : s.olen = some n) :
    hostReadOutput s = readBytes .obuf s 0 n.toNat := by
  simp [hostReadOutput, hostReadOlen, h, readResult]

/-- Bytes that are written, inside their space, are read. -/
theorem readBytes_of_written {sp : Space} {a n : Nat} (hn : a + n ≤ spaceSize s.build sp)
    (hw : ∀ k, k < n → (Mem.read (s.space sp) (a + k)).isSome) : ∃ bs, readBytes sp s a n = .next bs := by
  cases h : readBytes sp s a n with
  | next bs => exact ⟨bs, rfl⟩
  | fault e =>
    obtain ⟨k, hk, hr⟩ := readBytes_eq_fault h
    have hsome := hw k hk
    simp [(readByte_fault_inside (by omega) hr).2] at hsome
  | refused r => exact absurd h readBytes_ne_refused

/-- Settles O44: each register's write, and the two bounded writes inside their bounds. -/
theorem hostWritesTakeEffect : Obligations.HostWritesTakeEffect := by
  intro s e f v k he hf
  refine ⟨step_write he, step_write he, step_write he, step_write he, fun hline h0 hmax => ?_, fun hline h0 hmax => ?_⟩
  · refine ⟨BitVec.ofInt 32 v, ?_, ?_⟩
    · have := s.build.ibufMax.isLt
      rw [ofInt_toNat_cast, Int.emod_eq_of_lt h0 (by omega)]
    · rw [step_write he hline]
      exact if_pos ⟨h0, hmax⟩
  · refine ⟨_, (step_writeIbuf hf he hline).trans (hostWriteIbuf_eq_next.2 ⟨⟨h0, hmax⟩, rfl⟩), ?_, fun a ha => ?_, rfl⟩
    · simp [Mem.read_write]
    · simp [Mem.read_write, ha]

/-- Settles O45: each action fails the test of its bound. -/
theorem hostActionsOutsideThePortAreRefused : Obligations.HostActionsOutsideThePortAreRefused := by
  intro s e f v k he hf
  refine ⟨fun hline hv => ?_, fun hline hk => ?_, fun x n hline hn hk => ?_⟩
  · rw [step_write he hline]
    exact if_neg fun h => absurd h.2 (not_le.2 hv)
  · rw [step_writeIbuf hf he hline]
    exact if_neg fun h => absurd h.2 (not_lt.2 hk)
  · rw [step_readObuf hf hline, hostReadObuf_of_olen hn, if_neg fun h => absurd h.2 (not_lt.2 hk), andThen_refused]

/-- What a step does at a read of RES, NOFF or OLEN: the value, R46's fault on the ⊥ a command wrote, or log entry 1's value
before the first command. -/
theorem step_readResult {w x : Nat} {r : HostReg} {v : Option (BitVec w)} (hline : currentLine s = some (.read x r))
    (hr : hostRead r s = andThen (readResult r v s) fun n => .next (.int n)) :
    (∀ c, v = some c → step s = .next (setVar x (.int c.toNat) (nextLine s))) ∧
      (v = none → s.status.written = true → step s = .fault (.unwritten (.result r))) ∧
      (v = none → s.status.written = false → ∃ n, step s = .next (setVar x (.int n) (nextLine s))) := by
  obtain ⟨hsome, hfault, hbits⟩ := readResult_eq r v s
  rw [step_read hline, hr]
  refine ⟨fun c hc => ?_, fun hv hs => ?_, fun hv hs => ⟨(resetBits w).toNat, ?_⟩⟩
  · rw [hsome c hc, andThen_next, andThen_next]
  · rw [hfault hv hs, andThen_fault, andThen_fault]
  · rw [hbits hv hs, andThen_next, andThen_next]

/-- Settles O46: STATUS, CAP and CMD always answer; RES, NOFF and OLEN as `step_readResult` says. -/
theorem hostReadsAreValuesOrModelFaults : Obligations.HostReadsAreValuesOrModelFaults := fun _ _ =>
  ⟨step_read, fun hline => step_readResult hline rfl, fun hline => step_readResult hline rfl,
    fun hline => step_readResult hline rfl, step_read, step_read⟩

/-- Settles O47: the invariant says that the bytes below OLEN are written and inside OBUF. -/
theorem hostReadsEveryOutputByte : Obligations.HostReadsEveryOutputByte := by
  intro s x f k n hinv hn
  obtain ⟨hsize, hwritten⟩ := hinv.results.obufBytes n hn
  refine ⟨fun hf hline h0 hk => ?_, fun hline => ?_⟩
  · have hk' : k.toNat < n.toNat := by omega
    obtain ⟨b, hb⟩ := Option.isSome_iff_exists.1 ((hwritten k.toNat).2 hk')
    refine ⟨b, hb, ?_⟩
    rw [step_readObuf hf hline, hostReadObuf_of_olen hn, if_pos ⟨h0, hk⟩,
      readByte_eq_next.2 ⟨hk'.trans_le hsize, hb⟩, andThen_next]
  · obtain ⟨bs, hbs⟩ : ∃ bs, readBytes .obuf s 0 n.toNat = .next bs :=
      readBytes_of_written (by simpa using hsize) fun j hj => (hwritten _).2 (by omega)
    obtain ⟨hlen, hread⟩ := readBytes_eq_next.1 hbs
    refine ⟨bs, hlen, fun a ha => ?_, ?_⟩
    · have hget : bs[a]? = some bs[a] := List.getElem?_eq_getElem (hlen ▸ ha)
      rw [hget, ← (hread a _ hget).2, Nat.zero_add, space_obuf]
    · rw [step_read hline, hostRead, hostReadOutput_of_olen hn, hbs, andThen_next, andThen_next]

/-- Settles O54: both states are `State.resetOf` a build, whose fields are R49's values. -/
theorem resetLeavesTheSpecsValues : Obligations.ResetLeavesTheSpecsValues := by
  refine ⟨rfl, fun s t ht => ?_⟩
  obtain ⟨b, host, rfl⟩ : ∃ b host, t = { State.resetOf b with host := host } := by
    rcases ht with rfl | rfl
    · exact ⟨Build.default, .idle, rfl⟩
    · exact ⟨s.build, s.host, rfl⟩
  exact ⟨rfl, rfl, rfl, rfl, rfl, rfl, fun a => ⟨rfl, rfl⟩, fun r => by cases r <;> rfl,
    fun h => (congrArg State.build h).trans (assertReset_build s)⟩

end Sys2Proof.Machine
end

section
/-! The bits kept in unwritten registers do not matter (R46, R204; O40). The two runs are kept step by step in the relation
`Alike`: the primitives respect it, so each command does. -/

namespace Sys2Proof.Safety

open Sys2Proof Sys2Proof.Machine

/-- The second run answers where the first does, with states that differ only in the bits of unwritten registers, and faults
as it does. -/
structure Alike (x y : Host.Outcome State Fault Refusal) : Prop where
  next : ∀ t, x = .next t → ∃ t', y = .next t' ∧ SameButBottom t t'
  fault : ∀ e, x = .fault e → y = .fault e

theorem Alike.of_next {t t' : State} (h : SameButBottom t t') : Alike (.next t) (.next t') where
  next := by
    rintro _ ⟨⟩
    exact ⟨t', rfl, h⟩
  fault := by rintro e ⟨⟩

/-- The same reading in both runs, and alike from there. -/
theorem Alike.andThen {α : Type} {x y : Host.Outcome α Fault Refusal} {f g : α → Host.Outcome State Fault Refusal}
    (hxy : y = x) (h : ∀ a, Alike (f a) (g a)) : Alike (Machine.andThen x f) (Machine.andThen y g) := by
  subst hxy
  cases y with
  | next a => exact h a
  | fault e => exact ⟨by rintro t ⟨⟩, fun _ he => he⟩
  | refused r => exact ⟨by rintro t ⟨⟩, by rintro e ⟨⟩⟩

/-- The same test in both runs, and alike on both sides of it. -/
theorem Alike.ite {p q : Prop} [Decidable p] [Decidable q] {x x' y y' : Host.Outcome State Fault Refusal} (hpq : q ↔ p)
    (h : Alike x y) (h' : Alike x' y') : Alike (if p then x else x') (if q then y else y') := by
  by_cases hp : p
  · rwa [if_pos hp, if_pos (hpq.2 hp)]
  · rwa [if_neg hp, if_neg fun hq => hp (hpq.1 hq)]

/-- Registers that agree where written are equal once written. -/
theorem SameReg.eq {w : Nat} {a b : Reg w} (h : SameReg a b) (ha : a.written = true) : b = a := by
  obtain ⟨hwritten, hbits⟩ := h
  cases a
  cases b
  simp_all

/-- A command whose operands hold no ⊥ reads written registers only. -/
theorem isWritten_of_operand {i : Instr} {s : State} (h : bottomOperand i s = none) {r : OpReg} (hr : r ∈ operandsOf i) :
    isWritten s r = true := by
  simpa using List.find?_eq_none.1 h r hr

section operands
variable {i : Instr} {s s' : State} (h : SameButBottom s s') (hb : bottomOperand i s = none)
include h hb

theorem SameButBottom.readVal_eq (hi : .val ∈ operandsOf i) : readVal s' = readVal s :=
  congrArg readOperand (h.val.eq (isWritten_of_operand hb hi))

theorem SameButBottom.readVal32_eq (hi : .val ∈ operandsOf i) : readVal32 s' = readVal32 s := by
  simp only [readVal32, h.val.eq (isWritten_of_operand hb hi)]

theorem SameButBottom.readOff_eq (hi : .off ∈ operandsOf i) : readOff s' = readOff s :=
  congrArg readOperand (h.off.eq (isWritten_of_operand hb hi))

theorem SameButBottom.readBegin_eq (hi : .beginReg ∈ operandsOf i) : readBegin s' = readBegin s :=
  congrArg readOperand (h.beginReg.eq (isWritten_of_operand hb hi))

theorem SameButBottom.readEnd_eq (hi : .endReg ∈ operandsOf i) : readEnd s' = readEnd s :=
  congrArg readOperand (h.endReg.eq (isWritten_of_operand hb hi))

theorem SameButBottom.readIbufLen_eq (hi : .ibufLen ∈ operandsOf i) : readIbufLen s' = readIbufLen s :=
  congrArg readOperand (h.ibufLen.eq (isWritten_of_operand hb hi))

end operands

section bodies
variable {s s' : State} (h : SameButBottom s s')
include h

theorem SameButBottom.readIbuf_eq (a n : Nat) : readBytes .ibuf s' a n = readBytes .ibuf s a n :=
  readBytes_congr (sp := .ibuf) h.build h.ibuf a n

theorem SameButBottom.readSink_eq (a n : Nat) : readBytes .sink s' a n = readBytes .sink s a n :=
  readBytes_congr (sp := .sink) h.build h.sink a n

/-- The end of a command overwrites every result, and keeps every register it does not write. -/
theorem SameButBottom.finish (st : Status) (r : Results) : SameButBottom (finish st r s) (finish st r s') :=
  { h with status := ⟨rfl, fun _ => rfl⟩, res := rfl, noff := rfl, olen := rfl, obuf := rfl }

theorem SameButBottom.setLen (n : Word) : SameButBottom (setLen n s) (setLen n s') := { h with len := rfl }

theorem SameButBottom.writeSink (a : Nat) (bs : List Byte) : SameButBottom (writeSink a bs s) (writeSink a bs s') :=
  { h with sink := congrArg (Mem.writeList · a bs) h.sink }

/-- Both runs complete with the same results. -/
theorem SameButBottom.alike_complete (r : Results) : Alike (.next (complete r s)) (.next (complete r s')) :=
  .of_next (h.finish .ok r)

/-- Both runs raise the same error. -/
theorem SameButBottom.alike_raise (e : Status) : Alike (.next (raise e s)) (.next (raise e s')) :=
  .of_next (h.finish e {})

/-- A scan sees OFF, IBUF_LEN and IBUF alone (R102). -/
theorem SameButBottom.alike_scan {i : Instr} (hb : bottomOperand i s = none) (hi : operandsOf i = [.off, .ibufLen])
    {found found' : Word → Nat → Host.Outcome State Fault Refusal} (hf : ∀ off n, Alike (found off n) (found' off n)) :
    Alike (scanBody s found) (scanBody s' found') := by
  refine .andThen (h.readOff_eq hb (by simp [hi])) fun off => .andThen (h.readIbufLen_eq hb (by simp [hi])) fun len =>
    .andThen (scanLoop_congr h.build h.ibuf ..) fun r => ?_
  cases r with
  | none => exact h.alike_raise _
  | some n => exact hf off n

theorem SameButBottom.alike_decodeFound (off : Word) (n : Nat) :
    Alike (decodeFound s off n) (decodeFound s' off n) := .andThen (h.readIbuf_eq _ _) fun _ => h.alike_complete _

/-- PACK sees VAL alone (R142). -/
theorem SameButBottom.alike_pack {i : Instr} (hb : bottomOperand i s = none) (hi : .val ∈ operandsOf i) (k : Kind) :
    Alike (packBody k s) (packBody k s') := .andThen (h.readVal_eq hb hi) fun _ => h.alike_complete _

/-- UNPACK sees OFF, IBUF_LEN and IBUF alone (R149). -/
theorem SameButBottom.alike_unpack {i : Instr} (hb : bottomOperand i s = none) (hi : operandsOf i = [.off, .ibufLen])
    (k : Kind) : Alike (unpackBody k s) (unpackBody k s') :=
  .andThen (h.readOff_eq hb (by simp [hi])) fun _ => .andThen (h.readIbufLen_eq hb (by simp [hi])) fun _ =>
    .andThen (h.readIbuf_eq _ _) fun _ => h.alike_complete _

/-- SINK_APPEND sees IBUF_LEN, CAP, LEN, IBUF and SINK (R161). -/
theorem SameButBottom.alike_sinkAppend (hb : bottomOperand .sinkAppend s = none) :
    Alike (execSinkAppend s) (execSinkAppend s') := by
  refine .andThen (h.readIbufLen_eq hb (by decide)) fun n => .ite (by rw [h.build, h.len]) (h.alike_raise _) ?_
  refine .andThen (h.readIbuf_eq _ _) fun bs => ?_
  rw [h.len]
  exact (h.writeSink s.len.toNat bs).setLen (s.len + n) |>.alike_complete {}

/-- SINK_BYTES sees LEN and SINK (R163). -/
theorem SameButBottom.alike_sinkBytes : Alike (execSinkBytes s) (execSinkBytes s') :=
  .andThen (by rw [h.len]; exact h.readSink_eq _ _) fun _ => h.alike_complete _

/-- SINK_SLICE sees BEGIN, END, LEN and SINK (R164). -/
theorem SameButBottom.alike_sinkSlice (hb : bottomOperand .sinkSlice s = none) :
    Alike (execSinkSlice s) (execSinkSlice s') :=
  .andThen (h.readBegin_eq hb (by decide)) fun _ => .andThen (h.readEnd_eq hb (by decide)) fun _ =>
    .ite (by rw [h.len]) (h.alike_raise _) (.andThen (h.readSink_eq _ _) fun _ => h.alike_complete _)

/-- Every command runs alike in both states (R204). -/
theorem SameButBottom.alike_exec {i : Instr} (hb : bottomOperand i s = none) : Alike (exec i s) (exec i s') := by
  cases i
  case encVarint | encSvarint | zzEnc64 | zzDec64 =>
    all_goals
      simp only [exec, execEncVarint, execEncSvarint, execZzEnc64, execZzDec64]
      exact .andThen (h.readVal_eq hb (by decide)) fun _ => h.alike_complete _
  case zzEnc32 | zzDec32 =>
    all_goals
      simp only [exec, execZzEnc32, execZzDec32]
      exact .andThen (h.readVal32_eq hb (by decide)) fun _ => h.alike_complete _
  case decLen =>
    simp only [exec, execDecLen]
    exact h.alike_scan hb rfl fun _ _ => h.alike_complete _
  case decVarint | decSvarint => all_goals exact h.alike_scan hb rfl h.alike_decodeFound
  case rawToken =>
    simp only [exec, execRawToken]
    exact h.alike_scan hb rfl fun _ _ => .andThen (h.readIbuf_eq _ _) fun _ => h.alike_complete _
  case packInt32 | packUint32 | packFloat32 | packInt64 | packUint64 | packFloat64 =>
    all_goals exact h.alike_pack hb (by decide) _
  case unpackInt32 | unpackUint32 | unpackFloat32 | unpackInt64 | unpackUint64 | unpackFloat64 =>
    all_goals exact h.alike_unpack hb rfl _
  case sinkAppend => exact h.alike_sinkAppend hb
  case sinkLen =>
    simp only [exec, execSinkLen, h.len]
    exact h.alike_complete _
  case sinkBytes => exact h.alike_sinkBytes
  case sinkSlice => exact h.alike_sinkSlice hb
  case sinkClear => exact (h.setLen 0#32).alike_complete {}

end bodies

/-- Settles O40: both runs are alike. -/
theorem valuesOfUnwrittenRegistersDoNotMatter : Obligations.ValuesOfUnwrittenRegistersDoNotMatter := by
  intro i s s' h hb
  have halike := h.alike_exec hb
  exact ⟨halike.next, halike.fault⟩

end Sys2Proof.Safety
end

section
/-! What a command sees (R44, R62, R205): no result register and no OBUF byte, so the same command after its own end does the
same again (O39); and what it does to the sink (O34). -/

namespace Sys2Proof.Safety

open Sys2Proof Sys2Proof.Machine

section frames
variable {s t : State} (h : CommandFrame s t)
include h

theorem CommandFrame.setLen (n : Word) : CommandFrame (setLen n s) (setLen n t) :=
  ⟨h.build, h.cmd, h.val, h.off, h.beginReg, h.endReg, h.ibufLen, h.ibuf, h.host⟩

theorem CommandFrame.writeSink (a : Nat) (bs : List Byte) : CommandFrame (writeSink a bs s) (writeSink a bs t) :=
  ⟨h.build, h.cmd, h.val, h.off, h.beginReg, h.endReg, h.ibufLen, h.ibuf, h.host⟩

variable (hs : SinkFrame s t)
include hs

/-- A scan sees OFF, IBUF_LEN and IBUF alone (R102), and a malformed varint is reported over any old results. -/
theorem CommandFrame.scanBody_congr {found found' : Word → Nat → Host.Outcome State Fault Refusal}
    (hf : ∀ off n, found' off n = found off n) : scanBody t found' = scanBody s found := by
  simp only [scanBody, readOff, readIbufLen, scanLen, h.off, h.ibufLen, scanLoop_congr h.build h.ibuf, hf, raise_eq_finish,
    finish_congr h hs]

/-- UNPACK sees OFF, IBUF_LEN and IBUF alone (R149). -/
theorem CommandFrame.unpackBody_congr (k : Kind) : unpackBody k t = unpackBody k s := by
  simp only [unpackBody, readOff, readIbufLen, h.off, h.ibufLen, readBytes_congr (sp := .ibuf) h.build h.ibuf,
    complete_eq_finish, finish_congr h hs]

/-- PACK sees VAL alone (R142). -/
theorem CommandFrame.packBody_congr (k : Kind) : packBody k t = packBody k s := by
  simp only [packBody, readVal, h.val, complete_eq_finish, finish_congr h hs]

/-- DEC_VARINT and DEC_SVARINT read the bytes the scan found, and nothing else (R107, R108). -/
theorem CommandFrame.decodeFound_congr (off : Word) (n : Nat) : decodeFound t off n = decodeFound s off n := by
  simp only [decodeFound, readBytes_congr (sp := .ibuf) h.build h.ibuf, complete_eq_finish, finish_congr h hs]

/-- SINK_APPEND sees IBUF_LEN, CAP, LEN, IBUF and SINK (R161). -/
theorem CommandFrame.execSinkAppend_congr : execSinkAppend t = execSinkAppend s := by
  have happend (n : Word) (a : Nat) (bs : List Byte) :
      finish .ok {} (Machine.setLen n (Machine.writeSink a bs t)) =
        finish .ok {} (Machine.setLen n (Machine.writeSink a bs s)) :=
    finish_congr ((h.writeSink a bs).setLen n) ⟨rfl, congrArg (Mem.writeList · a bs) hs.sink⟩ .ok {}
  simp only [execSinkAppend, readIbufLen, h.ibufLen, h.build, hs.len, readBytes_congr (sp := .ibuf) h.build h.ibuf,
    raise_eq_finish, complete_eq_finish, finish_congr h hs, happend]

/-- A command's outcome depends on the build, CMD, the operand registers, IBUF, LEN, SINK and the host alone: the result
registers and OBUF are write-only to it (R44, R205). -/
theorem CommandFrame.exec_congr (i : Instr) : exec i t = exec i s := by
  cases i
  case encVarint | encSvarint | zzEnc32 | zzDec32 | zzEnc64 | zzDec64 =>
    all_goals
      simp only [exec, execEncVarint, execEncSvarint, execZzEnc32, execZzDec32, execZzEnc64, execZzDec64, readVal,
        readVal32, h.val, complete_eq_finish, finish_congr h hs]
  case packInt32 | packUint32 | packFloat32 | packInt64 | packUint64 | packFloat64 =>
    all_goals exact h.packBody_congr hs _
  case unpackInt32 | unpackUint32 | unpackFloat32 | unpackInt64 | unpackUint64 | unpackFloat64 =>
    all_goals exact h.unpackBody_congr hs _
  case decLen =>
    simp only [exec, execDecLen, complete_eq_finish, finish_congr h hs]
    exact h.scanBody_congr hs fun _ _ => rfl
  case decVarint | decSvarint => all_goals exact h.scanBody_congr hs (h.decodeFound_congr hs)
  case rawToken =>
    simp only [exec, execRawToken, readBytes_congr (sp := .ibuf) h.build h.ibuf, complete_eq_finish, finish_congr h hs]
    exact h.scanBody_congr hs fun _ _ => rfl
  case sinkAppend => exact h.execSinkAppend_congr hs
  case sinkLen => simp only [exec, execSinkLen, hs.len, complete_eq_finish, finish_congr h hs]
  case sinkBytes =>
    simp only [exec, execSinkBytes, hs.len, readBytes_congr (sp := .sink) h.build hs.sink, complete_eq_finish,
      finish_congr h hs]
  case sinkSlice =>
    simp only [exec, execSinkSlice, readBegin, readEnd, h.beginReg, h.endReg, hs.len,
      readBytes_congr (sp := .sink) h.build hs.sink, raise_eq_finish, complete_eq_finish, finish_congr h hs]
  case sinkClear => simp only [exec, execSinkClear, complete_eq_finish, finish_congr (h.setLen 0#32) ⟨rfl, hs.sink⟩]

end frames

/-- A command sees nothing of what the end of another wrote (R205). -/
theorem exec_finish (i : Instr) (st : Status) (r : Results) (s : State) : exec i (finish st r s) = exec i s :=
  (ended_finish st r s).frame.exec_congr (sinkFrame_finish st r s) i

/-- Settles O39: a command that only ends leaves what it sees as it was, and a cleared sink stays as it is when cleared. -/
theorem repeatedCommandsAgree : Obligations.RepeatedCommandsAgree := by
  intro i s t h happend
  cases exec_ends h with
  | error st hst => rwa [exec_finish]
  | results r hr => rwa [exec_finish]
  | append bs hi hn hc hb => exact absurd happend (by simp [hi, Status.code])
  | clear hi =>
    subst hi
    rw [exec_finish]
    rfl

/-- Settles O34: a command that only ends keeps the sink, and an append within CAP writes from LEN upwards without a wrap. -/
theorem sinkIsAppendOnly : Obligations.SinkIsAppendOnly := by
  intro i s t hi h
  cases exec_ends h with
  | error st hst => exact ⟨le_rfl, fun a ha => rfl⟩
  | results r hr => exact ⟨le_rfl, fun a ha => rfl⟩
  | append bs hi hn hc hb =>
    have hsum : (s.len + s.ibufLen.bits).toNat = s.len.toNat + s.ibufLen.bits.toNat :=
      BitVec.toNat_add_of_lt (hc.trans_lt s.build.cap.isLt)
    refine ⟨by simp [hsum], fun a ha => ?_⟩
    simp only [finish_sink, setLen_sink, writeSink_sink]
    rw [Mem.read_writeList, if_neg (by omega)]
  | clear hclear => exact absurd hclear hi

end Sys2Proof.Safety
end

section
/-! Command words (R80 to R87): what decoding makes of a word's fields, said once for every command, and the statements on
the encoding (O1 to O5). -/

namespace Sys2Proof

open Sys2Proof.Machine Sys2Proof.Safety

/-- A word is the word of its fields (R81). -/
@[simp] theorem Command.toWord_ofWord (w : Word) : (Command.ofWord w).toWord = w := by
  have hhigh : w.extractLsb' 16 16 ++ w.extractLsb' 8 8 = w.extractLsb' 8 24 :=
    BitVec.extractLsb'_append_extractLsb'_eq_extractLsb' rfl
  have hall : w.extractLsb' 8 24 ++ w.extractLsb' 0 8 = w.extractLsb' 0 32 :=
    BitVec.extractLsb'_append_extractLsb'_eq_extractLsb' rfl
  rw [Command.toWord, Command.ofWord, hhigh, hall, BitVec.extractLsb'_eq_self]

/-- The laws of Laws/PerInstr.lean, for every command. -/
theorem encoding_statement (i : Instr) : Laws.Encoding.Statement i := by
  open Laws.Encoding in
  cases i
  exacts [encVarint, encSvarint, decLen, decVarint, decSvarint, rawToken, zzEnc32, zzDec32, zzEnc64, zzDec64,
    packInt32, packUint32, packFloat32, packInt64, packUint64, packFloat64, unpackInt32, unpackUint32, unpackFloat32,
    unpackInt64, unpackUint64, unpackFloat64, sinkAppend, sinkLen, sinkBytes, sinkSlice, sinkClear]

@[simp] theorem decode_encode (i : Instr) : decode (encode i) = .instr i := (encoding_statement i).2.2

theorem Command.takesKind_iff (c : Command) : c.takesKind = true ↔ c.opc = 0x20#8 ∨ c.opc = 0x21#8 := by
  simp [Command.takesKind]

/-- R82's opcode map, in numbers. -/
theorem Command.opcKnown_iff (c : Command) : c.opcKnown = true ↔
    (0x01 ≤ c.opc.toNat ∧ c.opc.toNat ≤ 0x06) ∨ (0x10 ≤ c.opc.toNat ∧ c.opc.toNat ≤ 0x13) ∨
      c.opc = 0x20#8 ∨ c.opc = 0x21#8 ∨ (0x30 ≤ c.opc.toNat ∧ c.opc.toNat ≤ 0x34) := by
  simp [Command.opcKnown, Command.takesKind_iff, BitVec.le_def, or_assoc]

/-- Legal(w) as R84 writes it. -/
theorem Command.legal_iff (c : Command) : c.legal = true ↔
    ((0x01 ≤ c.opc.toNat ∧ c.opc.toNat ≤ 0x06) ∨ (0x10 ≤ c.opc.toNat ∧ c.opc.toNat ≤ 0x13) ∨
      c.opc = 0x20#8 ∨ c.opc = 0x21#8 ∨ (0x30 ≤ c.opc.toNat ∧ c.opc.toNat ≤ 0x34)) ∧
    c.rsv = 0#16 ∧ ((c.opc = 0x20#8 ∨ c.opc = 0x21#8) ∨ c.kind = 0x00#8) := by
  simp [Command.legal, Command.opcKnown_iff, Command.rsvZero, Command.kindZero, Command.takesKind_iff, and_assoc]

theorem Command.legal_of_takesKind {c : Command} (htakes : c.takesKind = true) (hr : c.rsv = 0#16) :
    c.legal = true := by
  simp [Command.legal, Command.opcKnown, Command.rsvZero, Command.kindZero, htakes, hr]

theorem Command.kindSupported_iff (c : Command) :
    c.kindSupported = true ↔ (c.takesKind = true → c.kind.toNat ≤ 5) := by
  cases h : c.takesKind <;> simp [Command.kindSupported, h, BitVec.le_def]

/-- What each answer of the decoder says of the fields it was given (R82 to R86). -/
def Command.Means (c : Command) : Decoded → Prop
  | .instr i => i.command = c
  | .illegalCommand => ¬ c.legal = true
  | .unsupportedKind => c.takesKind = true ∧ c.rsv = 0#16 ∧ 5 < c.kind.toNat

/-- Fields are a command's when its opcode and kind are, as the numbers the decoder matches on. -/
theorem Command.eq_of_toNat {c : Command} {i : Instr} (ho : c.opc.toNat = i.command.opc.toNat)
    (hk : c.kind.toNat = i.command.kind.toNat) (hr : c.rsv = i.command.rsv) : i.command = c := by
  show (⟨i.command.opc, i.command.kind, i.command.rsv⟩ : Command) = c
  rw [← BitVec.eq_of_toNat_eq ho, ← BitVec.eq_of_toNat_eq hk, ← hr]

/-- Under an opcode that takes no KIND the fields are its command's, or their KIND makes them illegal (R84). -/
theorem Command.means_plain {c : Command} {i : Instr} (ho : c.opc.toNat = i.command.opc.toNat) (hr : c.rsv = 0#16)
    (hi : i.command = ⟨i.command.opc, 0#8, 0#16⟩) (hk : i.command.takesKind = false) : c.Means (c.plain i) := by
  unfold Command.plain
  split
  case isTrue hz => exact Command.eq_of_toNat ho (by rw [hz, hi]) (by rw [hr, hi])
  case isFalse hz =>
    have htakes : c.takesKind = false := by
      rw [← hk, Command.takesKind, Command.takesKind, BitVec.eq_of_toNat_eq ho]
    simp [Command.Means, Command.legal, Command.kindZero, htakes, hz]

theorem Command.means_packOfKind {c : Command} (ho : c.opc.toNat = 0x20) (hr : c.rsv = 0#16) :
    c.Means (packOfKind c.kind) := by
  unfold packOfKind
  split
  case h_7 =>
    refine ⟨c.takesKind_iff.2 (.inl (BitVec.eq_of_toNat_eq ho)), hr, ?_⟩
    simp only [imp_false] at *
    omega
  all_goals exact Command.eq_of_toNat ho ‹_› hr

theorem Command.means_unpackOfKind {c : Command} (ho : c.opc.toNat = 0x21) (hr : c.rsv = 0#16) :
    c.Means (unpackOfKind c.kind) := by
  unfold unpackOfKind
  split
  case h_7 =>
    refine ⟨c.takesKind_iff.2 (.inr (BitVec.eq_of_toNat_eq ho)), hr, ?_⟩
    simp only [imp_false] at *
    omega
  all_goals exact Command.eq_of_toNat ho ‹_› hr

/-- The decoder's answer is right about the fields (R82 to R86). -/
theorem Command.means_decode (c : Command) : c.Means c.decode := by
  unfold Command.decode
  split
  case isFalse hr => exact fun h => hr (c.legal_iff.1 h).2.1
  case isTrue hr =>
    split
    case h_11 ho => exact Command.means_packOfKind ho hr
    case h_12 ho => exact Command.means_unpackOfKind ho hr
    case h_18 =>
      intro h
      have hopc := (c.legal_iff.1 h).1
      simp only [← BitVec.toNat_inj, BitVec.toNat_ofNat, imp_false] at *
      omega
    all_goals exact Command.means_plain ‹_› hr rfl rfl

theorem means_of_decode {w : Word} {d : Decoded} (h : decode w = d) : (Command.ofWord w).Means d :=
  h ▸ (Command.ofWord w).means_decode

/-- Settles O2: a command's word decodes to it, and a word that decodes to a command has that command's fields. -/
theorem decodeAndEncodeAgree : Obligations.DecodeAndEncodeAgree := by
  intro w i
  constructor
  · intro h
    have hfields : i.command = Command.ofWord w := means_of_decode h
    rw [encode, hfields, Command.toWord_ofWord]
  · rintro rfl
    exact decode_encode i

/-- Settles O1: each word is its command's. -/
theorem tableWordsDecode : Obligations.TableWordsDecode :=
  ⟨decode_encode .encVarint, decode_encode .decSvarint, decode_encode .zzEnc64, decode_encode .packFloat32,
    decode_encode .unpackFloat64, decode_encode .sinkSlice⟩

theorem issue_of_instr {w : Word} {i : Instr} (h : decode w = .instr i) (s : State) :
    issue w s = exec i (setCmd w s) := by simp [issue, h]

/-- Settles O5: both lines issue the word `w` (O2). -/
theorem stepRunsTheDecodedCommand : Obligations.StepRunsTheDecodedCommand := by
  intro s w i h
  have hissue := issue_of_instr h (nextLine s)
  refine ⟨fun hline => (step_of_currentLine hline).trans hissue, fun hline => (step_of_currentLine hline).trans ?_⟩
  rwa [← (decodeAndEncodeAgree w i).1 h] at hissue ⊢

/-- A word that is no command ends with its error and changes nothing but CMD and the results (R85, R86, R186). -/
theorem issue_error {w : Word} {s : State} {e : Status} (h : issue w s = .next (raise e (setCmd w s))) :
    ∃ t, issue w s = .next t ∧ Ended (setCmd w s) t e.code none none none ∧ SinkFrame s t :=
  ⟨_, h, ended_finish e {} (setCmd w s), rfl, rfl⟩

/-- The fields of a command are legal, with a KIND the opcode supports (R84, R86). -/
theorem Instr.command_legal (i : Instr) : i.command.legal = true ∧ i.command.kindSupported = true := by
  simpa [Command.wellFormed] using (encoding_statement i).1

/-- A word that is not legal decodes to no command and no KIND error (R85). -/
theorem decode_of_not_legal {w : Word} (h : ¬ (Command.ofWord w).legal = true) : decode w = .illegalCommand := by
  cases hd : decode w with
  | instr i =>
    have hfields : i.command = Command.ofWord w := means_of_decode hd
    exact absurd (hfields ▸ i.command_legal.1) h
  | illegalCommand => rfl
  | unsupportedKind =>
    obtain ⟨htakes, hr, -⟩ := means_of_decode hd
    exact absurd (Command.legal_of_takesKind htakes hr) h

/-- A legal PACK or UNPACK word with KIND above 0x05 decodes to the KIND error (R86, R187). -/
theorem decode_of_unsupportedKind {w : Word} (htakes : (Command.ofWord w).takesKind = true)
    (hr : (Command.ofWord w).rsv = 0#16) (hk : 5 < (Command.ofWord w).kind.toNat) : decode w = .unsupportedKind := by
  cases hd : decode w with
  | instr i =>
    have hfields : i.command = Command.ofWord w := means_of_decode hd
    have hle := (Command.kindSupported_iff _).1 (hfields ▸ i.command_legal.2) htakes
    omega
  | illegalCommand => exact absurd (Command.legal_of_takesKind htakes hr) (means_of_decode hd)
  | unsupportedKind => rfl

/-- Settles O3: such a word decodes to the illegal command. -/
theorem wordsNotLegalReportIllegalCommand : Obligations.WordsNotLegalReportIllegalCommand := by
  intro s w h
  have hd : decode w = .illegalCommand := decode_of_not_legal fun hl => h ((Command.legal_iff _).1 hl)
  exact issue_error (e := .illegalCommand) (by rw [issue, hd])

/-- Settles O4: such a word decodes to the KIND error. -/
theorem unsupportedKindsAreReported : Obligations.UnsupportedKindsAreReported := by
  intro s w hopc hr hk
  have hd : decode w = .unsupportedKind := decode_of_unsupportedKind ((Command.takesKind_iff _).2 hopc) hr hk
  exact issue_error (e := .unsupportedKind) (by rw [issue, hd])

end Sys2Proof
end

section
/-! The host's lines that fill the input buffer, APPEND_OBUF, and jumps (R90, R91; O48 to O51). -/

namespace Sys2Proof.Machine

open Sys2Proof Sys2Proof.Safety

variable {s : State}

/-- IBUF and IBUF_LEN as `IBUF := bs` leaves them (R90). -/
def withBuffer (bs : List Byte) (s : State) : State :=
  { s with ibuf := Mem.writeList s.ibuf 0 bs, ibufLen := .holding (BitVec.ofNat 32 bs.length) }

@[simp] theorem withBuffer_ibufLen (bs : List Byte) (s : State) :
    (withBuffer bs s).ibufLen = ⟨BitVec.ofNat 32 bs.length, true⟩ := rfl

@[simp] theorem withBuffer_sink (bs : List Byte) (s : State) : (withBuffer bs s).sink = s.sink := rfl

theorem hostSetIbuf_of_fits {bs : List Byte} (h : bs.length ≤ s.build.ibufMax.toNat) :
    hostSetIbuf bs s = .next (withBuffer bs s) := hostSetIbuf_eq_next.2 ⟨h, rfl⟩

/-- The bytes of the buffer are the list's (R90). -/
theorem read_withBuffer_of_lt {bs : List Byte} {a : Nat} (ha : a < bs.length) (s : State) :
    Mem.read (withBuffer bs s).ibuf a = bs[a]? := by
  simp [withBuffer, Mem.read_writeList, ha]

/-- The bytes past the list stay (R90). -/
theorem read_withBuffer_of_le {bs : List Byte} {a : Nat} (ha : bs.length ≤ a) (s : State) :
    Mem.read (withBuffer bs s).ibuf a = Mem.read s.ibuf a := by
  simp [withBuffer, Mem.read_writeList, ha]

theorem bytesAt_withBuffer (bs : List Byte) (s : State) : BytesAt (withBuffer bs s).ibuf 0 bs := by
  intro i b hb
  have hi : i < bs.length := (List.getElem?_eq_some_iff.1 hb).1
  rw [Nat.zero_add, read_withBuffer_of_lt hi, hb]

/-- The number of bytes that fit IBUF is a 32-bit number (R10). -/
theorem toNat_ofNat_of_fits {k : Nat} (h : k ≤ s.build.ibufMax.toNat) : (BitVec.ofNat 32 k).toNat = k := by
  have := s.build.ibufMax.isLt
  rw [BitVec.toNat_ofNat, Nat.mod_eq_of_lt (by omega)]

/-- Settles O48: the line leaves `withBuffer` of the list. -/
theorem bufferLinesWriteBytesAndLength : Obligations.BufferLinesWriteBytesAndLength := by
  intro s l bs hline hl hfits
  have hstep : step s = .next (withBuffer bs (nextLine s)) := by
    rw [step_of_currentLine hline, runLine, evalBytes_eq_next.2 hl, andThen_next]
    exact hostSetIbuf_of_fits hfits
  exact ⟨_, _, hstep, toNat_ofNat_of_fits hfits, withBuffer_ibufLen bs _, bytesAt_withBuffer bs _,
    fun a ha => read_withBuffer_of_le ha _, rfl⟩

/-- The invariant does not see where the host is in its program. -/
theorem inv_nextLine (h : Inv s) : Inv (nextLine s) :=
  h.of_host_side h.spaces.ibufWf h.spaces.ibufBelow h.lengths.bufferFits ..

/-- The output the host reads is the first OLEN bytes of OBUF: the invariant says that they are written (R41, R63). -/
theorem hostReadOutput_of_inv (h : Inv s) {n : Word} (hn : s.olen = some n) :
    ∃ bs, hostReadOutput s = .next bs ∧ bs.length = n.toNat ∧ ∀ a, a < n.toNat → bs[a]? = Mem.read s.obuf a := by
  obtain ⟨hsize, hwritten⟩ := h.results.obufBytes n hn
  obtain ⟨bs, hbs⟩ : ∃ bs, readBytes .obuf s 0 n.toNat = .next bs :=
    readBytes_of_written (by omega) fun j hj => (hwritten _).2 (by omega)
  obtain ⟨hlen, hread⟩ := readBytes_eq_next.1 hbs
  refine ⟨bs, (hostReadOutput_of_olen hn).trans hbs, hlen, fun a ha => ?_⟩
  have hget : bs[a]? = some bs[a] := List.getElem?_eq_getElem (hlen ▸ ha)
  rw [hget, ← (hread a _ hget).2, Nat.zero_add, space_obuf]

/-- `IBUF := OBUF` fills the buffer with the output (R206). -/
theorem hostCopyObuf_of_inv (h : Inv s) {n : Word} (hn : s.olen = some n) (hmax : n.toNat ≤ s.build.ibufMax.toNat) :
    ∃ bs, hostCopyObuf s = .next (withBuffer bs s) ∧ bs.length = n.toNat ∧
      ∀ a, a < n.toNat → bs[a]? = Mem.read s.obuf a := by
  obtain ⟨bs, hout, hlen, hread⟩ := hostReadOutput_of_inv h hn
  refine ⟨bs, ?_, hlen, hread⟩
  rw [hostCopyObuf, hout, andThen_next]
  exact hostSetIbuf_of_fits (hlen ▸ hmax)

/-- Settles O49: the line leaves `withBuffer` of the output. -/
theorem copyMovesOutputToInput : Obligations.CopyMovesOutputToInput := by
  intro s n hinv hline hn hmax
  obtain ⟨bs, hcopy, hlen, hread⟩ := hostCopyObuf_of_inv (inv_nextLine hinv) hn hmax
  refine ⟨_, (step_of_currentLine hline).trans hcopy, ?_, fun a ha => ?_, fun a ha => ?_, rfl⟩
  · rw [withBuffer_ibufLen, hlen, BitVec.ofNat_toNat, BitVec.setWidth_eq]
  · exact (read_withBuffer_of_lt (hlen ▸ ha) _).trans (hread a ha)
  · exact read_withBuffer_of_le (hlen ▸ ha) _

/-- SINK_APPEND of a written buffer that fits the sink (R161). -/
theorem exec_sinkAppend_of_bytes {bs : List Byte} (hlen : bs.length = s.ibufLen.bits.toNat) (hfits : BufferFits s)
    (hbytes : BytesAt s.ibuf 0 bs) (hcap : s.len.toNat + s.ibufLen.bits.toNat ≤ s.build.cap.toNat) :
    exec .sinkAppend s = .next (complete {} (setLen (s.len + s.ibufLen.bits) (writeSink s.len.toNat bs s))) := by
  have hread : readBytes .ibuf s 0 s.ibufLen.bits.toNat = .next bs := by
    refine readBytes_eq_next.2 ⟨hlen, fun i b hb => ⟨?_, hbytes i b hb⟩⟩
    have hi : i < bs.length := (List.getElem?_eq_some_iff.1 hb).1
    have hmax : s.ibufLen.bits.toNat ≤ s.build.ibufMax.toNat := hfits
    rw [spaceSize_ibuf]
    omega
  simp only [exec, execSinkAppend, readIbufLen, readOperand_eq, andThen_next, hread]
  rw [if_neg (not_lt.2 hcap)]

/-- APPEND_OBUF is SINK_APPEND from the buffer that the copy fills (R91). -/
theorem runLines_appendObuf {bs : List Byte} (hcopy : hostCopyObuf (nextLine s) = .next (withBuffer bs (nextLine s)))
    (hmax : bs.length ≤ s.build.ibufMax.toNat) (hcap : s.len.toNat + bs.length ≤ s.build.cap.toNat) :
    runLines (Pseudo.expand .appendObuf) s =
      .next (complete {} (setLen (s.len + BitVec.ofNat 32 bs.length) (writeSink s.len.toNat bs
        (setCmd (encode .sinkAppend) (nextLine (withBuffer bs (nextLine s))))))) := by
  have hlen : (BitVec.ofNat 32 bs.length).toNat = bs.length := toNat_ofNat_of_fits hmax
  have happend := exec_sinkAppend_of_bytes
    (s := setCmd (encode .sinkAppend) (nextLine (withBuffer bs (nextLine s)))) hlen.symm (hlen.trans_le hmax)
    (bytesAt_withBuffer bs _) ((congrArg (s.len.toNat + ·) hlen).trans_le hcap)
  simp only [Pseudo.expand, runLines, runLine, hcopy, andThen_next, issue_of_instr (decode_encode _), happend]
  rfl

/-- Settles O50: the bytes appended are the output, from LEN upwards. -/
theorem appendObufAddsTheOutput : Obligations.AppendObufAddsTheOutput := by
  intro s n hinv hn hmax hcap
  obtain ⟨bs, hcopy, hlen, hread⟩ := hostCopyObuf_of_inv (inv_nextLine hinv) hn hmax
  have hrun := runLines_appendObuf hcopy (hlen ▸ hmax) (hlen ▸ hcap)
  rw [hlen, BitVec.ofNat_toNat, BitVec.setWidth_eq] at hrun
  refine ⟨_, hrun, rfl, BitVec.toNat_add_of_lt (hcap.trans_lt s.build.cap.isLt), fun a ha => ?_, fun a ha => ?_⟩
  · refine Eq.trans ?_ (hread a ha)
    simp [Mem.read_writeList, hlen, ha]
  · simp [Mem.read_writeList, ha]

/-- A label's line, where it is found. -/
theorem getElem?_of_findLabel {ls : List Line} {l k : Nat} (h : findLabel ls l = some k) :
    ls[k]? = some (.label l) := by
  induction ls generalizing k with
  | nil => cases h
  | cons x rest ih =>
    simp only [findLabel] at h
    split at h
    case isTrue hx =>
      cases h
      simp [hx]
    case isFalse hx =>
      obtain ⟨j, hj, rfl⟩ := Option.map_eq_some_iff.1 h
      simpa using ih hj

theorem jump_of_findLabel {l k : Nat} (h : findLabel s.host.program l = some k) :
    jump l s = .next { s with host := { s.host with pos := k } } := by simp [jump, h]

/-- The step at a branch whose condition has a value. -/
theorem step_branch {c : Cond} {l : Nat} {b : Bool} (hline : currentLine s = some (.branch c l))
    (hc : evalCond s c = .next b) : step s = if b then jump l s else .next (nextLine s) := by
  simp [step_of_currentLine hline, runLine, hc]

/-- Settles O51: a jump goes where the label is found. -/
theorem branchesFollowTheirCondition : Obligations.BranchesFollowTheirCondition := by
  intro s c l
  refine ⟨fun k hk => ⟨getElem?_of_findLabel hk, ?_⟩, step_branch⟩
  rintro (hline | ⟨hline, hc⟩)
  · exact (step_of_currentLine hline).trans (jump_of_findLabel hk)
  · exact (step_branch hline hc).trans (jump_of_findLabel hk)

end Sys2Proof.Machine
end

section
/-! In a well-formed host program no jump lacks its label (R90; O52). No operation but a jump is refused for a label, which
`LabelSafe` carries through each line. -/

namespace Sys2Proof.Machine

open Sys2Proof Sys2Proof.Safety

/-- The outcome is no refusal for a missing label. -/
def LabelSafe {α : Type} (x : Host.Outcome α Fault Refusal) : Prop := ∀ l, x ≠ .refused (.noSuchLabel l)

section outcomes
variable {α β : Type}

theorem LabelSafe.next (a : α) : LabelSafe (.next a) := by rintro l ⟨⟩

theorem LabelSafe.fault (e : Fault) : LabelSafe (.fault e : Host.Outcome α Fault Refusal) := by rintro l ⟨⟩

theorem LabelSafe.of_ne_refused {x : Host.Outcome α Fault Refusal} (h : ∀ r, x ≠ .refused r) : LabelSafe x :=
  fun _ => h _

theorem LabelSafe.andThen {x : Host.Outcome α Fault Refusal} {f : α → Host.Outcome β Fault Refusal} (hx : LabelSafe x)
    (hf : ∀ a, LabelSafe (f a)) : LabelSafe (andThen x f) := by
  intro l h
  rcases andThen_eq_refused.1 h with h | ⟨a, -, h⟩
  · exact hx l h
  · exact hf a l h

theorem LabelSafe.ite {p : Prop} [Decidable p] {x y : Host.Outcome α Fault Refusal} (hx : LabelSafe x)
    (hy : LabelSafe y) : LabelSafe (if p then x else y) := by
  split
  · exact hx
  · exact hy

end outcomes

/-! The host's port (R50, R52). -/

theorem labelSafe_readBytes (sp : Space) (s : State) (a n : Nat) : LabelSafe (readBytes sp s a n) :=
  .of_ne_refused fun _ => readBytes_ne_refused

theorem labelSafe_readResult {w : Nat} (r : HostReg) (v : Option (BitVec w)) (s : State) :
    LabelSafe (readResult r v s) := by
  cases v with
  | some x => exact .next _
  | none => exact .ite (.fault _) (.next _)

theorem labelSafe_hostReadObuf (i : Int) (s : State) : LabelSafe (hostReadObuf i s) :=
  .andThen (labelSafe_readResult _ _ _) fun _ =>
    .ite (.of_ne_refused fun _ => readByte_ne_refused) (by rintro l ⟨⟩)

theorem labelSafe_hostReadOutput (s : State) : LabelSafe (hostReadOutput s) :=
  .andThen (labelSafe_readResult _ _ _) fun _ => labelSafe_readBytes _ _ _ _

theorem labelSafe_hostSetIbuf (bs : List Byte) (s : State) : LabelSafe (hostSetIbuf bs s) :=
  .ite (.next _) (by rintro l ⟨⟩)

theorem labelSafe_hostWrite (r : OpReg) (v : Int) (s : State) : LabelSafe (hostWrite r v s) := by
  cases r with
  | ibufLen => exact .ite (.next _) (by rintro l ⟨⟩)
  | val | off | beginReg | endReg => exact .next _

theorem labelSafe_hostWriteIbuf (i b : Int) (s : State) : LabelSafe (hostWriteIbuf i b s) :=
  .ite (.next _) (by rintro l ⟨⟩)

theorem labelSafe_hostRead (r : HostReg) (s : State) : LabelSafe (hostRead r s) := by
  cases r with
  | status | cap | cmd => exact .next _
  | res | noff | olen => exact .andThen (labelSafe_readResult _ _ _) fun _ => .next _
  | obuf => exact .andThen (labelSafe_hostReadOutput s) fun _ => .next _

/-! Host expressions and conditions (R12 to R15, R90). -/

theorem labelSafe_number (v : Value) : LabelSafe v.number := by
  cases v with
  | int n => exact .next n
  | bytes bs => rintro l ⟨⟩

theorem labelSafe_byteList (v : Value) : LabelSafe v.byteList := by
  cases v with
  | int n => rintro l ⟨⟩
  | bytes bs => exact .next bs

section values
variable {x y : Host.Outcome Value Fault Refusal}

theorem LabelSafe.withNumber {f : Int → Host.Outcome Value Fault Refusal} (hx : LabelSafe x)
    (hf : ∀ n, LabelSafe (f n)) : LabelSafe (withNumber x f) := hx.andThen fun v => (labelSafe_number v).andThen hf

theorem LabelSafe.withNumbers (hx : LabelSafe x) (hy : LabelSafe y) (f : Int → Int → Value) :
    LabelSafe (withNumbers x y f) := hx.withNumber fun _ => hy.withNumber fun _ => .next _

theorem LabelSafe.withBytes {f : List Byte → Host.Outcome Value Fault Refusal} (hx : LabelSafe x)
    (hf : ∀ bs, LabelSafe (f bs)) : LabelSafe (withBytes x f) := hx.andThen fun v => (labelSafe_byteList v).andThen hf

end values

theorem labelSafe_sliceOf (x hi lo : Int) : LabelSafe (sliceOf x hi lo) := .ite (.next _) (by rintro l ⟨⟩)

theorem labelSafe_itemOf (bs : List Byte) (i : Int) : LabelSafe (itemOf bs i) := by
  refine .ite ?_ (by rintro l ⟨⟩)
  cases bs[i.toNat]? with
  | some b => exact .next _
  | none => rintro l ⟨⟩

theorem labelSafe_sublistOf (bs : List Byte) (i j : Int) : LabelSafe (sublistOf bs i j) :=
  .ite (.next _) (.ite (.ite (.next _) (by rintro l ⟨⟩)) (by rintro l ⟨⟩))

/-- No expression names a label. -/
theorem labelSafe_evalExpr (s : State) (e : Expr) : LabelSafe (evalExpr s e) := by
  induction e with
  | const | bytes => exact .next _
  | var t =>
    rw [evalExpr]
    cases lookupVar s.host.vars t with
    | some v => exact .next v
    | none => rintro l ⟨⟩
  | reg r => exact labelSafe_hostRead r s
  | obufAt i ih => exact ih.withNumber fun k => (labelSafe_hostReadObuf k s).andThen fun _ => .next _
  | add a b iha ihb | sub a b iha ihb | mul a b iha ihb | bit o w a b iha ihb => exact iha.withNumbers ihb _
  | neg a ih | conv c a ih | compl w a ih | negBits w a ih | single a ih => exact ih.withNumber fun _ => .next _
  | slice a hi lo iha ihhi ihlo =>
    exact iha.withNumber fun _ => ihhi.withNumber fun _ => ihlo.withNumber fun _ => labelSafe_sliceOf _ _ _
  | append a b iha ihb => exact iha.withBytes fun _ => ihb.withBytes fun _ => .next _
  | len a ih => exact ih.withBytes fun _ => .next _
  | item a i iha ihi => exact iha.withBytes fun _ => ihi.withNumber fun _ => labelSafe_itemOf _ _
  | sublist a i j iha ihi ihj =>
    exact iha.withBytes fun _ => ihi.withNumber fun _ => ihj.withNumber fun _ => labelSafe_sublistOf _ _ _

theorem labelSafe_evalNumber (s : State) (e : Expr) : LabelSafe (evalNumber s e) :=
  (labelSafe_evalExpr s e).andThen labelSafe_number

theorem labelSafe_evalBytes (s : State) (e : Expr) : LabelSafe (evalBytes s e) :=
  (labelSafe_evalExpr s e).andThen labelSafe_byteList

theorem labelSafe_cmp (o : Cmp) (x y : Value) : LabelSafe (o.apply x y) := by
  cases x <;> cases y
  case int.int => exact .next _
  case bytes.bytes =>
    cases o with
    | eq | ne => exact .next _
    | lt | le => rintro l ⟨⟩
  all_goals rintro l ⟨⟩

/-- No condition names a label. -/
theorem labelSafe_evalCond (s : State) (c : Cond) : LabelSafe (evalCond s c) := by
  induction c with
  | cmp o a b =>
    exact (labelSafe_evalExpr s a).andThen fun x => (labelSafe_evalExpr s b).andThen fun y => labelSafe_cmp o x y
  | not a ih => exact ih.andThen fun _ => .next _
  | and a b iha ihb | or a b iha ihb => exact iha.andThen fun _ => ihb.andThen fun _ => .next _

/-! Lines. -/

/-- A command word is never refused (R199). -/
theorem issue_ne_refused (w : Word) (s : State) (r : Refusal) : issue w s ≠ .refused r := by
  rcases issue_cases w s with ⟨i, -, h⟩ | ⟨st, -, h⟩ <;> rw [h]
  · exact exec_ne_refused i _ r
  · rintro ⟨⟩

/-- A jump to a label of the program is not refused. -/
theorem labelSafe_jump {l : Nat} {s : State} (h : s.host.program.contains (.label l) = true) : LabelSafe (jump l s) := by
  rw [← findLabel_isSome] at h
  obtain ⟨k, hk⟩ := Option.isSome_iff_exists.1 h
  rw [jump_of_findLabel hk]
  exact .next _

/-- A line whose jump, if it has one, has its label is refused for no label. -/
theorem labelSafe_runLine {x : Line} {s : State}
    (h : ∀ l, x.target = some l → s.host.program.contains (.label l) = true) : LabelSafe (runLine x s) := by
  cases x with
  | word w | command i => exact .of_ne_refused (issue_ne_refused _ _)
  | write r e => exact (labelSafe_evalNumber s e).andThen fun v => labelSafe_hostWrite r v _
  | writeIbuf i b =>
    exact (labelSafe_evalNumber s i).andThen fun k => (labelSafe_evalNumber s b).andThen fun v =>
      labelSafe_hostWriteIbuf k v _
  | setIbuf e => exact (labelSafe_evalBytes s e).andThen fun bs => labelSafe_hostSetIbuf bs _
  | copyObuf => exact (labelSafe_hostReadOutput _).andThen fun bs => labelSafe_hostSetIbuf bs _
  | read t r => exact (labelSafe_hostRead r s).andThen fun _ => .next _
  | readObuf t i =>
    exact (labelSafe_evalNumber s i).andThen fun k => (labelSafe_hostReadObuf k s).andThen fun _ => .next _
  | assign t e => exact (labelSafe_evalExpr s e).andThen fun _ => .next _
  | label | halt => exact .next _
  | branch c l => exact (labelSafe_evalCond s c).andThen fun _ => .ite (labelSafe_jump (h l rfl)) (.next _)
  | goto l => exact labelSafe_jump (h l rfl)

/-- In a well-formed program every line's jump has its label (R90). -/
theorem contains_target {ls : List Line} (h : programWellFormed ls = true) {x : Line} (hx : x ∈ ls) {l : Nat}
    (hl : x.target = some l) : ls.contains (.label l) = true := by
  have hjumps : jumpsResolve ls = true := by
    simp only [programWellFormed, Bool.and_eq_true] at h
    exact h.1.2
  have hline := List.all_eq_true.1 hjumps x hx
  rwa [hl] at hline

/-- A step keeps the host's program: the host's own moves do, and a command has the host in its frame. -/
theorem step_program {s t : State} (h : step s = .next t) : t.host.program = s.host.program := by
  cases step_moves h with
  | host h hp => exact hp
  | issue w t h =>
    obtain ⟨st, r, hended, -⟩ := issue_ended h
    rw [hended.frame.host]
    rfl
  | _ => rfl

/-- Settles O52: the next line is one of the program's, so its jump has its label. -/
theorem wellFormedProgramsJumpToTheirLabels : Obligations.WellFormedProgramsJumpToTheirLabels := by
  refine fun s h => ⟨?_, fun t => step_program⟩
  show LabelSafe (step s)
  cases hline : currentLine s with
  | none =>
    rw [step, hline]
    exact .next s
  | some x =>
    rw [step_of_currentLine hline]
    exact labelSafe_runLine fun l => contains_target h (List.mem_of_getElem? hline)

end Sys2Proof.Machine
end

section
/-! The varint encoders (O6 to O8) and decoders (O9 to O11, O14, O15), and the round trip (O16). Where a varint stands at
OFF the scan finds it (`VarintAt.scanBody_eq`); in every state it alone decides how a decoder ends (`scans_exec_cases`). -/

namespace Sys2Proof.Safety

open Sys2Proof Sys2Proof.Machine

variable {s : State} {bs : List Byte}

/-! Encoding (R104, R105, R110). -/

theorem exec_encVarint (s : State) :
    exec .encVarint s = .next (complete { bytes := some (varintBytes s.val.bits) } s) := rfl

/-- The pattern of a signed value is the value's own, so ENC_SVARINT encodes the same bytes (R116). -/
theorem exec_encSvarint_eq (s : State) : exec .encSvarint s = exec .encVarint s := by
  simp only [exec, execEncSvarint, execEncVarint, BitVec.ofInt_toInt]

/-- DEC_SVARINT differs from DEC_VARINT only in how the host reads RES (R108). -/
theorem exec_decSvarint_eq (s : State) : exec .decSvarint s = exec .decVarint s := rfl

/-- Settles O8: the laws of the two signed commands. -/
theorem signedAndUnsignedFormsCoincide : Obligations.SignedAndUnsignedFormsCoincide :=
  fun s => ⟨exec_encSvarint_eq s, exec_decSvarint_eq s⟩

/-- Settles O6: both commands emit `varintBytes`, whose law gives the length and each byte. -/
theorem encodersEmitTheMinimalVarint : Obligations.EncodersEmitTheMinimalVarint := by
  refine ⟨decode_encode .encVarint, decode_encode .encSvarint, fun s i hi _ => ?_⟩
  have hexec : exec i s = exec .encVarint s := by
    rcases hi with rfl | rfl
    · rfl
    · exact exec_encSvarint_eq s
  obtain ⟨hlen, -, hbytes⟩ := varintBytes_spec s.val.bits
  exact ⟨_, _, hexec.trans (exec_encVarint s), ended_finish _ _ s, sinkFrame_finish _ _ s, varintBytes_isVarint _, hlen,
    fun k b hb => (hbytes k b hb).2⟩

/-- A value with bit 63 set takes ten 7-bit groups (R105). -/
theorem varintBytes_length_of_neg {v : DWord} (h : v.toInt < 0) : (varintBytes v).length = 10 := by
  have hbit : 2 ^ 63 ≤ v.toNat := by
    have := BitVec.toInt_neg_iff.1 h
    omega
  have hsize : v.toNat.size = 64 := le_antisymm (Nat.size_le.2 v.isLt) (Nat.lt_size.2 hbit)
  rw [(varintBytes_spec v).1, hsize]
  rfl

/-- Settles O7: OLEN counts the ten bytes. -/
theorem negativeValuesEncodeToTenBytes : Obligations.NegativeValuesEncodeToTenBytes := by
  intro s _ hneg
  refine ⟨_, (exec_encSvarint_eq s).trans (exec_encVarint s), rfl, ?_⟩
  simp [varintBytes_length_of_neg hneg]

/-! Decoding where a varint stands at OFF (R102, R103, R106 to R109). -/

/-- A scan that passes every byte before index `k` and stops there answers the length `k + 1` (R102). -/
theorem scanBody_found {k : Nat} (hk : k < 10) (hin : s.off.bits.toNat + k < s.ibufLen.bits.toNat)
    (hp : ∀ m, m < k → Passes s s.off.bits.toNat m) (hs : Stops s s.off.bits.toNat k)
    (found : Word → Nat → Host.Outcome State Fault Refusal) : scanBody s found = found s.off.bits (k + 1) := by
  have hscan : scanLen s s.off.bits s.ibufLen.bits = .next (some (k + 1)) :=
    scanLoop_found (Nat.zero_le k) (by omega) (by unfold remaining; omega) (fun m _ hm => hp m hm) hs
  simp [scanBody, readOff, readIbufLen, hscan]

section varintAt
variable (hfits : BufferFits s) (h : VarintAt s bs)
include hfits h

/-- The bytes of a varint in the buffer are read (R16, R35). -/
theorem VarintAt.readByte_eq {i : Nat} {b : Byte} (hb : bs[i]? = some b) :
    readByte .ibuf (s.off.bits.toNat + i) s = .next b := by
  refine readByte_eq_next.2 ⟨?_, h.bytes i b hb⟩
  have hi : i < bs.length := (List.getElem?_eq_some_iff.1 hb).1
  have hinside := h.inside
  have hmax : s.ibufLen.bits.toNat ≤ s.build.ibufMax.toNat := hfits
  rw [spaceSize_ibuf]
  omega

theorem VarintAt.readBytes_eq : readBytes .ibuf s s.off.bits.toNat bs.length = .next bs :=
  readBytes_eq_next.2 ⟨rfl, fun _ _ hb => readByte_eq_next.1 (h.readByte_eq hfits hb)⟩

/-- The scan finds the varint: it passes every byte but the last, and stops there (R100, R102). -/
theorem VarintAt.scanBody_eq (found : Word → Nat → Host.Outcome State Fault Refusal) :
    scanBody s found = found s.off.bits bs.length := by
  have ⟨⟨hne, hshort, hcont⟩, hinside, _⟩ := h
  have hbyte (m : Nat) (hm : m < bs.length) :
      ∃ b, readByte .ibuf (s.off.bits.toNat + m) s = .next b ∧ b.getLsbD 7 = decide (m + 1 < bs.length) :=
    have hget : bs[m]? = some bs[m] := List.getElem?_eq_getElem hm
    ⟨bs[m], h.readByte_eq hfits hget, hcont m _ hget⟩
  have hlast : bs.length - 1 + 1 = bs.length := by omega
  have hpass (m : Nat) (hm : m < bs.length - 1) : Passes s s.off.bits.toNat m := by
    simpa [Passes, show m + 1 < bs.length by omega] using hbyte m (by omega)
  have hstop : Stops s s.off.bits.toNat (bs.length - 1) := by
    simpa [Stops, hlast] using hbyte (bs.length - 1) (by omega)
  rw [scanBody_found (by omega) (by omega) hpass hstop, hlast]

/-- DEC_LEN gives the length (R106). -/
theorem VarintAt.exec_decLen : exec .decLen s = .next (complete { res := some (BitVec.ofNat 64 bs.length) } s) := by
  rw [exec, execDecLen, h.scanBody_eq hfits]

/-- DEC_VARINT gives the value and the offset past it (R107). -/
theorem VarintAt.exec_decVarint : exec .decVarint s =
    .next (complete { res := some (varintValue bs), noff := some (s.off.bits + BitVec.ofNat 32 bs.length) } s) := by
  rw [exec, execDecVarint, h.scanBody_eq hfits, decodeFound, h.readBytes_eq hfits, andThen_next]

/-- RAW_TOKEN gives the bytes and the offset past them (R109). -/
theorem VarintAt.exec_rawToken : exec .rawToken s =
    .next (complete { noff := some (s.off.bits + BitVec.ofNat 32 bs.length), bytes := some bs } s) := by
  rw [exec, execRawToken, h.scanBody_eq hfits, h.readBytes_eq hfits, andThen_next]

end varintAt

/-- The offset past a varint in the buffer does not wrap: it is at most IBUF_LEN (R107, R109). -/
theorem VarintAt.noff_toNat (h : VarintAt s bs) :
    (s.off.bits + BitVec.ofNat 32 bs.length).toNat = s.off.bits.toNat + bs.length := by
  have hinside := h.inside
  have := s.ibufLen.bits.isLt
  rw [BitVec.toNat_add, BitVec.toNat_ofNat, Nat.add_mod_mod, Nat.mod_eq_of_lt (by omega)]

theorem varintValue_eq_payloadSum (bs : List Byte) : varintValue bs = BitVec.ofNat 64 (payloadSum bs) := by
  rw [varintValue, varintSum_eq_payloadSum]

/-- Settles O9: DEC_LEN completes with the scan's length. -/
theorem decLenGivesTheLength : Obligations.DecLenGivesTheLength :=
  fun s _ _ hfits h => ⟨_, h.exec_decLen hfits, ended_finish _ _ s, sinkFrame_finish _ _ s⟩

/-- Settles O10: both commands complete with the value of the bytes the scan found. -/
theorem decodersGiveValueAndOffset : Obligations.DecodersGiveValueAndOffset := by
  intro s bs i hi _ hfits h
  have hexec : exec i s = exec .decVarint s := by
    rcases hi with rfl | rfl
    · rfl
    · exact exec_decSvarint_eq s
  rw [← varintValue_eq_payloadSum]
  exact ⟨_, _, hexec.trans (h.exec_decVarint hfits), ended_finish _ _ s, h.noff_toNat, sinkFrame_finish _ _ s⟩

/-- Settles O11: RAW_TOKEN completes with the bytes the scan found. -/
theorem rawTokenCopiesTheBytes : Obligations.RawTokenCopiesTheBytes :=
  fun s _ _ hfits h => ⟨_, _, h.exec_rawToken hfits, ended_finish _ _ s, h.noff_toNat, sinkFrame_finish _ _ s⟩

theorem payloadSum_append_single (bs : List Byte) (last : Byte) :
    payloadSum (bs ++ [last]) = payloadSum bs + last.toNat % 128 * 2 ^ (7 * bs.length) := by
  rw [payloadSum, List.length_append, List.length_singleton, Finset.sum_range_succ, payloadSum]
  congr 1
  · refine Finset.sum_congr rfl fun i hi => ?_
    rw [List.getElem?_append_left (Finset.mem_range.1 hi)]
  · simp

/-- Settles O15: the tenth payload counts 2^63, so modulo 2^64 its bits from 1 upwards are multiples of 2^64. -/
theorem tenthByteGivesBit63Only : Obligations.TenthByteGivesBit63Only := by
  intro s bs last _ hfits h hlen
  refine ⟨_, h.exec_decVarint hfits, rfl, ?_⟩
  simp only [complete_eq_finish, finish_res, Option.some.injEq]
  rw [varintValue_eq_payloadSum, payloadSum_append_single, hlen]
  apply BitVec.eq_of_toNat_eq
  simp only [BitVec.toNat_ofNat]
  omega

/-! The scan decides alone how the decoders end (R115). -/

/-- DEC_LEN, DEC_VARINT, DEC_SVARINT and RAW_TOKEN: the commands that begin with the scan (R102). -/
def Scans (i : Instr) : Prop := i = .decLen ∨ i = .decVarint ∨ i = .decSvarint ∨ i = .rawToken

/-- A scan that passes every byte it may read is malformed (R181). -/
theorem scanBody_malformed
    (hp : ∀ m, m < 10 → s.off.bits.toNat + m < s.ibufLen.bits.toNat → Passes s s.off.bits.toNat m)
    (found : Word → Nat → Host.Outcome State Fault Refusal) :
    scanBody s found = .next (raise .malformedVarint s) := by
  have hscan : scanLen s s.off.bits s.ibufLen.bits = .next none :=
    scanLoop_none fun m _ h10 hm => hp m (by omega) (by unfold remaining at hm; omega)
  simp [scanBody, readOff, readIbufLen, hscan]

/-- Bytes that are read one by one are read together. -/
theorem readBytes_of_readByte {sp : Space} {a n : Nat} (h : ∀ k, k < n → ∃ b, readByte sp (a + k) s = .next b) :
    ∃ bs, readBytes sp s a n = .next bs := by
  cases hread : readBytes sp s a n with
  | next bs => exact ⟨bs, rfl⟩
  | fault e =>
    obtain ⟨k, hk, hfault⟩ := readBytes_eq_fault hread
    obtain ⟨b, hb⟩ := h k hk
    rw [hfault] at hb
    cases hb
  | refused r => exact absurd hread readBytes_ne_refused

/-- What the scan can answer, whatever follows it: a length whose bytes it has read, a malformed varint, or a fault. -/
theorem scanBody_uniform (s : State) :
    (∃ n bs, readBytes .ibuf s s.off.bits.toNat n = .next bs ∧ ∀ found, scanBody s found = found s.off.bits n) ∨
      (∀ found, scanBody s found = .next (raise .malformedVarint s)) ∨ ∃ e, ∀ found, scanBody s found = .fault e := by
  rcases scanBody_cases s fun _ _ => .next s with
    ⟨n, hpos, hshort, hinside, hp, hs, -⟩ | ⟨hp, -⟩ | ⟨j, e, hj, hinside, hp, hr, -⟩
  · obtain ⟨k, rfl⟩ : ∃ k, n = k + 1 := ⟨n - 1, by omega⟩
    have hread (m : Nat) (hm : m < k + 1) : ∃ b, readByte .ibuf (s.off.bits.toNat + m) s = .next b := by
      rcases eq_or_lt_of_le (Nat.le_of_lt_succ hm) with rfl | hlt
      · exact hs.imp fun b hb => hb.1
      · exact (hp m (by omega)).imp fun b hb => hb.1
    obtain ⟨bs, hbs⟩ := readBytes_of_readByte hread
    exact .inl ⟨k + 1, bs, hbs, scanBody_found (by omega) (by omega) (fun m hm => hp m (by omega)) hs⟩
  · exact .inr (.inl (scanBody_malformed hp))
  · exact .inr (.inr ⟨e, scanBody_fault hj hinside hp hr⟩)

/-- The four commands complete together, fail together with MalformedVarint, or fault together (R115). -/
theorem scans_exec_cases (s : State) :
    (∀ i, Scans i → ∃ r, exec i s = .next (complete r s)) ∨
      (∀ i, Scans i → exec i s = .next (raise .malformedVarint s)) ∨ ∃ e, ∀ i, Scans i → exec i s = .fault e := by
  rcases scanBody_uniform s with ⟨n, bs, hread, hscan⟩ | hscan | ⟨e, hscan⟩
  · refine .inl fun i hi => ?_
    rcases hi with rfl | rfl | rfl | rfl
    · simp only [exec, execDecLen, hscan]
      exact ⟨_, rfl⟩
    · exact ⟨_, (hscan _).trans (by rw [decodeFound, hread, andThen_next])⟩
    · exact ⟨_, (hscan _).trans (by rw [decodeFound, hread, andThen_next])⟩
    · simp only [exec, execRawToken, hscan, hread, andThen_next]
      exact ⟨_, rfl⟩
  · refine .inr (.inl fun i hi => ?_)
    obtain ⟨found, hexec⟩ := exec_eq_scanBody hi s
    exact hexec.trans (hscan found)
  · refine .inr (.inr ⟨e, fun i hi => ?_⟩)
    obtain ⟨found, hexec⟩ := exec_eq_scanBody hi s
    exact hexec.trans (hscan found)

/-- Settles O14: the command and DEC_LEN both scan. -/
theorem decodersFailExactlyWithDecLen : Obligations.DecodersFailExactlyWithDecLen := by
  intro s i hi
  have hlen : Scans .decLen := .inl rfl
  have hi : Scans i := .inr hi
  rcases scans_exec_cases s with h | h | ⟨e, h⟩
  · obtain ⟨r, hr⟩ := h i hi
    obtain ⟨r', hr'⟩ := h _ hlen
    simp [hr, hr', Status.code]
  · simp [h i hi, h _ hlen]
  · simp [h i hi, h _ hlen]

/-! The round trip (R112). -/

theorem runLine_write_const (r : OpReg) (n : Int) (s : State) :
    runLine (.write r (.const n)) s = hostWrite r n (nextLine s) := rfl

theorem runLine_command (i : Instr) (s : State) :
    runLine (.command i) s = exec i (setCmd (encode i) (nextLine s)) := issue_of_instr (decode_encode i) _

/-- The lines `VAL := v; ENC_VARINT` leave varint_bytes(v) in OBUF (R104). -/
theorem runLines_encVarint (s : State) (v : DWord) :
    ∃ t, runLines [.write .val (.const v.toNat), .command .encVarint] s = .next t ∧
      HoldsBytes t (some (varintBytes v)) ∧ t.build = s.build := by
  refine ⟨finish .ok { bytes := some (varintBytes v) }
    (setCmd (encode .encVarint) (nextLine { nextLine s with val := .holding v })), ?_, (ended_finish ..).bytes, rfl⟩
  simp only [runLines, runLine_write_const, runLine_command, hostWrite, ofInt_toNat_self, andThen_next, exec_encVarint]
  rfl

/-- `IBUF := OBUF` fills the buffer with the bytes a command left (R206). -/
theorem hostCopyObuf_of_holdsBytes (h : HoldsBytes s (some bs)) (hobuf : bs.length ≤ spaceSize s.build .obuf)
    (hibuf : bs.length ≤ s.build.ibufMax.toNat) : hostCopyObuf s = .next (withBuffer bs s) := by
  obtain ⟨holen, hread⟩ := h
  have hout : hostReadOutput s = .next bs := by
    rw [hostReadOutput_of_olen holen, toNat_ofNat_of_fits hibuf]
    refine readBytes_eq_next.2 ⟨rfl, fun i b hb => ⟨?_, ?_⟩⟩
    · have hi : i < bs.length := (List.getElem?_eq_some_iff.1 hb).1
      omega
    · rw [Nat.zero_add, space_obuf, hread, hb]
  rw [hostCopyObuf, hout, andThen_next, hostSetIbuf_of_fits hibuf]

/-- The state DEC_VARINT runs in at the end of the lines `IBUF := bs; OFF := 0; DEC_VARINT`. -/
def atDecVarint (bs : List Byte) (s : State) : State :=
  setCmd (encode .decVarint) (nextLine { nextLine (withBuffer bs (nextLine s)) with off := .holding 0#32 })

/-- A varint in the buffer stands at OFF = 0. -/
theorem varintAt_atDecVarint (hvarint : IsVarint bs) (hibuf : bs.length ≤ s.build.ibufMax.toNat) :
    VarintAt (atDecVarint bs s) bs where
  isVarint := hvarint
  inside := by simp [atDecVarint, toNat_ofNat_of_fits hibuf]
  bytes := bytesAt_withBuffer bs _

/-- The lines `IBUF := OBUF; OFF := 0; DEC_VARINT` decode the varint a command left in OBUF (R206, R107). -/
theorem runLines_decVarint (h : HoldsBytes s (some bs)) (hvarint : IsVarint bs) (hmax : 10 ≤ s.build.ibufMax.toNat) :
    ∃ u, runLines [.copyObuf, .write .off (.const 0), .command .decVarint] s = .next u ∧
      u.status = ⟨0x00#8, true⟩ ∧ u.res = some (varintValue bs) ∧ u.noff = some (BitVec.ofNat 32 bs.length) := by
  have hibuf : bs.length ≤ s.build.ibufMax.toNat := hvarint.short.trans hmax
  have hcopy : runLine .copyObuf s = .next (withBuffer bs (nextLine s)) :=
    hostCopyObuf_of_holdsBytes (s := nextLine s) h (hvarint.short.trans (le_max_left _ _)) hibuf
  have hfits : BufferFits (atDecVarint bs s) := (toNat_ofNat_of_fits hibuf).trans_le hibuf
  have hrun : runLines [.copyObuf, .write .off (.const 0), .command .decVarint] s =
      andThen (exec .decVarint (atDecVarint bs s)) .next := by
    simp only [runLines, hcopy, runLine_write_const, runLine_command, hostWrite, andThen_next]
    rfl
  rw [(varintAt_atDecVarint hvarint hibuf).exec_decVarint hfits, andThen_next] at hrun
  exact ⟨_, hrun, rfl, rfl, by simp [atDecVarint]⟩

/-- Settles O16: the bytes ENC_VARINT leaves are a varint of `v`, which DEC_VARINT gives back. -/
theorem varintRoundTrip : Obligations.VarintRoundTrip := by
  intro s v hmax
  obtain ⟨t, hrun, hbytes, hbuild⟩ := runLines_encVarint s v
  obtain ⟨u, hrun', hstatus, hres, hnoff⟩ := runLines_decVarint hbytes (varintBytes_isVarint v) (hbuild ▸ hmax)
  exact ⟨t, u, hrun, hrun', hstatus, by rw [hres, varintValue_varintBytes], hnoff.trans hbytes.1.symm⟩

end Sys2Proof.Safety
end

section
/-! The zigzag commands: their closed form (O17, O18), the round trip (O19), and the length of a signed field (O20). Each
answers a function of VAL in RES (`AnswersInRes`), so the programs of O19 and O20 are run once, for every such command. -/

namespace Sys2Proof.Safety

open Sys2Proof Sys2Proof.Machine

variable {s : State} {i j : Instr} {f g : DWord → DWord}

/-! What each command answers (R130 to R133). -/

/-- The command always completes, with RES a function of VAL and no other result. -/
def AnswersInRes (i : Instr) (f : DWord → DWord) : Prop :=
  ∀ s, exec i s = .next (complete { res := some (f s.val.bits) } s)

/-- What ZZ_ENC32 makes of VAL (R130). -/
def zigzag32 (v : DWord) : DWord := (zigzag (v.extractLsb' 0 32)).setWidth 64

/-- What ZZ_DEC32 makes of VAL (R131). -/
def unzigzag32 (v : DWord) : DWord := (unzigzag (v.extractLsb' 0 32)).signExtend 64

theorem zzEnc32_answersInRes : AnswersInRes .zzEnc32 zigzag32 := fun _ => rfl

theorem zzDec32_answersInRes : AnswersInRes .zzDec32 unzigzag32 := fun _ => rfl

theorem zzEnc64_answersInRes : AnswersInRes .zzEnc64 zigzag := fun _ => rfl

theorem zzDec64_answersInRes : AnswersInRes .zzDec64 unzigzag := fun _ => rfl

/-- How such a command ends (R44). -/
theorem AnswersInRes.ended (h : AnswersInRes i f) (s : State) : ∃ t, exec i s = .next t ∧
    Ended s t 0x00#8 (some (f s.val.bits)) none none ∧ SinkFrame s t :=
  ⟨_, h s, ended_finish _ _ s, sinkFrame_finish _ _ s⟩

/-! The 32-bit functions on integers. -/

/-- Zero extension keeps the unsigned number (R130). -/
theorem zigzag32_toNat (v : DWord) : (zigzag32 v).toNat = (zigzag (v.extractLsb' 0 32)).toNat :=
  BitVec.toNat_setWidth_of_le (by decide)

/-- Sign extension keeps the signed number (R131). -/
theorem unzigzag32_toInt (v : DWord) : (unzigzag32 v).toInt = (unzigzag (v.extractLsb' 0 32)).toInt :=
  BitVec.toInt_signExtend_of_le (by decide)

theorem extractLsb'_zigzag32 (v : DWord) : (zigzag32 v).extractLsb' 0 32 = zigzag (v.extractLsb' 0 32) := by
  apply BitVec.eq_of_toNat_eq
  rw [BitVec.extractLsb'_toNat, zigzag32_toNat, Nat.shiftRight_zero, Nat.mod_eq_of_lt (BitVec.isLt _)]

/-- R134 for 32 bits: the upper half of VAL is lost, and bit 31 is copied there. -/
theorem unzigzag32_zigzag32 (v : DWord) : unzigzag32 (zigzag32 v) = (v.extractLsb' 0 32).signExtend 64 := by
  rw [unzigzag32, extractLsb'_zigzag32, unzigzag_zigzag]

/-- Settles O17: `zigzag_toNat` is R135's closed form at every width. -/
theorem zigzagEncodeClosedForm : Obligations.ZigzagEncodeClosedForm := by
  refine ⟨decode_encode .zzEnc32, decode_encode .zzEnc64, fun s _ => ?_⟩
  obtain ⟨t, hexec, hended, hsink⟩ := zzEnc32_answersInRes.ended s
  obtain ⟨t', hexec', hended', hsink'⟩ := zzEnc64_answersInRes.ended s
  exact ⟨⟨t, _, hexec, hended, hsink, by rw [zigzag32_toNat, zigzag_toNat]⟩,
    t', _, hexec', hended', hsink', zigzag_toNat _⟩

/-- Settles O18: `unzigzag_toInt` is R135's closed form at every width. -/
theorem zigzagDecodeClosedForm : Obligations.ZigzagDecodeClosedForm := by
  refine ⟨decode_encode .zzDec32, decode_encode .zzDec64, fun s _ => ?_⟩
  obtain ⟨t, hexec, hended, hsink⟩ := zzDec32_answersInRes.ended s
  obtain ⟨t', hexec', hended', hsink'⟩ := zzDec64_answersInRes.ended s
  refine ⟨⟨t, _, hexec, hended, hsink, ?_⟩, t', _, hexec', hended', hsink', unzigzag_toInt _⟩
  rw [unzigzag32_toInt, unzigzag_toInt, BitVec.extractLsb'_toNat, Nat.shiftRight_zero]

/-! The lines `VAL := e; COMMAND; x := RES; VAL := x`, with which the programs of O19 and O20 begin (R91, R134). -/

/-- A host variable holds what was set last. -/
theorem lookupVar_updateVar_self (vars : List (Nat × Value)) (x : Nat) (v : Value) :
    lookupVar (updateVar vars x v) x = some v := by
  induction vars with
  | nil => simp [updateVar, lookupVar]
  | cons p rest ih =>
    obtain ⟨k, y⟩ := p
    by_cases h : k = x <;> simp [updateVar, lookupVar, h, ih]

theorem evalExpr_var_setVar (x : Nat) (v : Value) (s : State) : evalExpr (setVar x v s) (.var x) = .next v := by
  simp [evalExpr, lookupVar_updateVar_self]

theorem runLine_write_val {e : Expr} {n : Int} (he : evalExpr s e = .next (.int n)) :
    runLine (.write .val e) s = .next { nextLine s with val := .holding (BitVec.ofInt 64 n) } := by
  rw [runLine, evalNumber_eq_next.2 he, andThen_next, hostWrite]

theorem runLine_read_res {r : DWord} (h : s.res = some r) (x : Nat) :
    runLine (.read x .res) s = .next (setVar x (.int r.toNat) (nextLine s)) := by
  rw [runLine, hostRead, h, readResult, andThen_next, andThen_next]

/-- The result of a command is moved to VAL, from which the lines after it go on. -/
theorem AnswersInRes.runLines_toVal (h : AnswersInRes i f) {e : Expr} {n : Int} (he : evalExpr s e = .next (.int n))
    (x : Nat) (ls : List Line) : ∃ u, u.val.bits = f (BitVec.ofInt 64 n) ∧
      runLines (.write .val e :: .command i :: .read x .res :: .write .val (.var x) :: ls) s = runLines ls u := by
  refine ⟨?u, ?hval, ?hrun⟩
  case hrun =>
    rw [runLines, runLine_write_val he, andThen_next, runLines, runLine_command, h, andThen_next, runLines,
      runLine_read_res rfl, andThen_next, runLines, runLine_write_val (evalExpr_var_setVar ..), andThen_next]
  case hval => exact ofInt_toNat_self _

/-- One command as the last line (R87). -/
theorem runLines_command (i : Instr) (s : State) :
    runLines [.command i] s = andThen (exec i (setCmd (encode i) (nextLine s))) .next := by
  rw [runLines, runLine_command]
  rfl

/-- Two commands, the second on the result of the first, compose. -/
theorem AnswersInRes.runLines_comp (hi : AnswersInRes i f) (hj : AnswersInRes j g) (s : State) (v : DWord) (x : Nat) :
    ∃ t, runLines [.write .val (.const v.toNat), .command i, .read x .res, .write .val (.var x), .command j] s = .next t ∧
      t.res = some (g (f v)) := by
  obtain ⟨u, hval, hrun⟩ := hi.runLines_toVal (s := s) (e := .const v.toNat) rfl x [.command j]
  rw [ofInt_toNat_self] at hval
  refine ⟨_, hrun.trans ((runLines_command j u).trans (by rw [hj, andThen_next])), ?_⟩
  rw [complete_eq_finish, finish_res, setCmd_val, nextLine_val, hval]

/-- Settles O19: the two commands' functions are inverse (R134). -/
theorem zigzagRoundTrip : Obligations.ZigzagRoundTrip := by
  refine fun s v x => ⟨?_, ?_⟩
  · rw [← unzigzag32_zigzag32]
    exact zzEnc32_answersInRes.runLines_comp zzDec32_answersInRes s v x
  · obtain ⟨t, hrun, hres⟩ := zzEnc64_answersInRes.runLines_comp zzDec64_answersInRes s v x
    exact ⟨t, hrun, by rw [hres, unzigzag_zigzag]⟩

/-! The length of a signed field (R136). -/

/-- The zigzag of an i32 is a u32, of at most five 7-bit groups (R110, R136). -/
theorem varintBytes_zigzag32_length (v : DWord) : (varintBytes (zigzag32 v)).length ≤ 5 := by
  have hlt : (zigzag32 v).toNat < 2 ^ 32 := (zigzag32_toNat v).trans_lt (BitVec.isLt _)
  have hsize : (zigzag32 v).toNat.size ≤ 32 := Nat.size_le.2 hlt
  rw [(varintBytes_spec _).1]
  omega

/-- ENC_VARINT of a command's result leaves OLEN at the length of that result's varint (R104). -/
theorem AnswersInRes.runLines_encVarint_olen (h : AnswersInRes i f) {e : Expr} {n : Int}
    (he : evalExpr s e = .next (.int n)) (x : Nat) : ∃ t k,
      runLines [.write .val e, .command i, .read x .res, .write .val (.var x), .command .encVarint] s = .next t ∧
        t.olen = some k ∧ k.toNat = (varintBytes (f (BitVec.ofInt 64 n))).length := by
  obtain ⟨u, hval, hrun⟩ := h.runLines_toVal he x [.command .encVarint]
  refine ⟨_, _, hrun.trans (runLines_command .encVarint u), rfl, ?_⟩
  have hshort := (varintBytes_isVarint (f (BitVec.ofInt 64 n))).short
  rw [setCmd_val, nextLine_val, hval, BitVec.toNat_ofNat, Nat.mod_eq_of_lt (by omega)]

/-- Settles O20: what reaches ENC_VARINT is a u32 in ENC_SINT32, and any 64-bit value in ENC_SINT64. -/
theorem signedFieldsHaveBoundedLength : Obligations.SignedFieldsHaveBoundedLength := by
  refine fun s n x => ⟨?_, ?_⟩
  · obtain ⟨t, k, hrun, holen, hk⟩ := zzEnc32_answersInRes.runLines_encVarint_olen (s := s)
      (e := .conv .zext64 (.conv .bits32 (.const n))) rfl x
    exact ⟨t, k, hrun, holen, hk ▸ (varintBytes_isVarint _).nonempty, hk ▸ varintBytes_zigzag32_length _⟩
  · obtain ⟨t, k, hrun, holen, hk⟩ := zzEnc64_answersInRes.runLines_encVarint_olen (s := s)
      (e := .conv .bits64 (.const n)) rfl x
    exact ⟨t, k, hrun, holen, hk ▸ (varintBytes_isVarint _).nonempty, hk ▸ (varintBytes_isVarint _).short⟩

end Sys2Proof.Safety
end

section
/-! The fixed-width commands: PACK (O21), UNPACK (O22, O23), and the round trip (O24). The six kinds of each are one
command with the kind as a parameter (`Kind.packInstr`, `Kind.unpackInstr`), so each fact is said once for all kinds. -/

namespace Sys2Proof.Machine

open Sys2Proof Sys2Proof.Safety

variable {s : State} {bs : List Byte}

/-- PACK of a kind (R83). -/
def Kind.packInstr : Kind → Instr
  | .int32 => .packInt32
  | .uint32 => .packUint32
  | .float32 => .packFloat32
  | .int64 => .packInt64
  | .uint64 => .packUint64
  | .float64 => .packFloat64

/-- UNPACK of a kind (R83). -/
def Kind.unpackInstr : Kind → Instr
  | .int32 => .unpackInt32
  | .uint32 => .unpackUint32
  | .float32 => .unpackFloat32
  | .int64 => .unpackInt64
  | .uint64 => .unpackUint64
  | .float64 => .unpackFloat64

theorem exec_packInstr (k : Kind) (s : State) :
    exec k.packInstr s = .next (complete { bytes := some (k.pack s.val.bits) } s) := by
  cases k <;> rfl

theorem exec_unpackInstr (k : Kind) (s : State) : exec k.unpackInstr s = unpackBody k s := by
  cases k <;> rfl

/-! The bytes of a value (R64, R142). -/

theorem Kind.width_le_eight (k : Kind) : k.width ≤ 8 := by
  cases k <;> decide

theorem Kind.pack_length (k : Kind) (v : DWord) : (k.pack v).length = k.width := by
  cases k <;> exact leBytes_length ..

/-- Bit `m` of byte `j` of le_bytes_N(w) is bit 8j + m of w (R64). -/
theorem getLsbD_of_leBytes {n w j m : Nat} {v : BitVec w} {b : Byte} (hb : (leBytes n v)[j]? = some b) (hm : m < 8) :
    j < n ∧ b.getLsbD m = v.getLsbD (8 * j + m) := by
  rw [leBytes_getElem?] at hb
  split at hb
  case isTrue hj =>
    cases hb
    exact ⟨hj, by rw [BitVec.getLsbD_extractLsb', decide_eq_true hm, Bool.true_and]⟩
  case isFalse => cases hb

/-- The 32-bit kinds emit bits of the low half of VAL, which are bits of VAL (R142). -/
theorem Kind.getLsbD_of_pack {k : Kind} {v : DWord} {j m : Nat} {b : Byte} (hb : (k.pack v)[j]? = some b) (hm : m < 8) :
    b.getLsbD m = v.getLsbD (8 * j + m) := by
  have low (hb : (leBytes 4 (v.extractLsb' 0 32))[j]? = some b) : b.getLsbD m = v.getLsbD (8 * j + m) := by
    obtain ⟨hj, hbit⟩ := getLsbD_of_leBytes hb hm
    have hlow : 8 * j + m < 32 := by omega
    rw [hbit, BitVec.getLsbD_extractLsb', decide_eq_true hlow, Bool.true_and, Nat.zero_add]
  have whole (hb : (leBytes 8 v)[j]? = some b) : b.getLsbD m = v.getLsbD (8 * j + m) := (getLsbD_of_leBytes hb hm).2
  cases k
  exacts [low hb, low hb, low hb, whole hb, whole hb, whole hb]

/-- Settles O21: the bytes are those of `Kind.pack`. -/
theorem packEmitsLittleEndianBytes : Obligations.PackEmitsLittleEndianBytes := by
  refine ⟨⟨decode_encode .packInt32, decode_encode .packUint32, decode_encode .packFloat32, decode_encode .packInt64,
    decode_encode .packUint64, decode_encode .packFloat64⟩, fun s i n hi _ => ?_⟩
  obtain ⟨k, rfl, rfl⟩ : ∃ k : Kind, i = k.packInstr ∧ n = k.width := by
    rcases hi with ⟨rfl, rfl | rfl | rfl⟩ | ⟨rfl, rfl | rfl | rfl⟩
    exacts [⟨.int32, rfl, rfl⟩, ⟨.uint32, rfl, rfl⟩, ⟨.float32, rfl, rfl⟩, ⟨.int64, rfl, rfl⟩, ⟨.uint64, rfl, rfl⟩,
      ⟨.float64, rfl, rfl⟩]
  exact ⟨_, _, exec_packInstr k s, ended_finish .ok _ s, sinkFrame_finish .ok _ s, k.pack_length _,
    fun j b hb m hm => Kind.getLsbD_of_pack hb hm⟩

/-! The value of the bytes read (R64, R149 to R155). -/

/-- A sum of bytes is below 2^(8n) (R64). -/
theorem leSum_lt (bs : List Byte) : leSum bs < 2 ^ (8 * bs.length) := by
  induction bs with
  | nil => simp [leSum]
  | cons b rest ih =>
    have hb : b.toNat < 2 ^ 8 := b.isLt
    rw [leSum, List.length_cons, Nat.mul_succ, pow_add]
    omega

/-- le_word_N of at most N bytes is their sum: the missing high bytes are zero (R149). -/
theorem leWord_toNat {w : Nat} (h : 8 * bs.length ≤ w) : (leWord w bs).toNat = byteSum bs := by
  have hlt : leSum bs < 2 ^ w := (leSum_lt bs).trans_le (Nat.pow_le_pow_right (by decide) h)
  rw [leWord, BitVec.toNat_ofNat, Nat.mod_eq_of_lt hlt, leSum_eq_byteSum]

/-- Every kind but int32 keeps the unsigned word (R151 to R155). -/
theorem Kind.unpack_toNat {k : Kind} (hk : k ≠ .int32) (h : bs.length ≤ k.width) :
    (k.unpack bs).toNat = byteSum bs := by
  have widened (h : bs.length ≤ 4) : ((leWord 32 bs).setWidth 64).toNat = byteSum bs := by
    rw [BitVec.toNat_setWidth_of_le (by decide), leWord_toNat (by omega)]
  have whole (h : bs.length ≤ 8) : (leWord 64 bs).toNat = byteSum bs := leWord_toNat (by omega)
  cases k
  case int32 => exact absurd rfl hk
  exacts [widened h, widened h, whole h, whole h, whole h]

/-- int32 keeps the signed word (R150). -/
theorem Kind.unpack_int32_toInt (h : bs.length ≤ 4) :
    (Kind.unpack .int32 bs).toInt = if byteSum bs < 2 ^ 31 then (byteSum bs : Int) else (byteSum bs : Int) - 2 ^ 32 := by
  have hword : (leWord 32 bs).toNat = byteSum bs := leWord_toNat (by omega)
  rw [Kind.unpack, BitVec.toInt_signExtend_of_le (by decide), BitVec.toInt_eq_toNat_cond, hword]
  split <;> split <;> omega

/-! UNPACK reads the bytes up to W or the buffer's end (R149). -/

/-- Written bytes inside the buffer are read (R16, R35). -/
theorem readBytes_ibuf_of_bytesAt {a : Nat} (hfits : BufferFits s) (hin : bs.length ≤ s.ibufLen.bits.toNat - a)
    (hbytes : BytesAt s.ibuf a bs) : readBytes .ibuf s a bs.length = .next bs := by
  refine readBytes_eq_next.2 ⟨rfl, fun i b hb => ⟨?_, hbytes i b hb⟩⟩
  have hi : i < bs.length := (List.getElem?_eq_some_iff.1 hb).1
  have hmax : s.ibufLen.bits.toNat ≤ s.build.ibufMax.toNat := hfits
  rw [spaceSize_ibuf]
  omega

/-- UNPACK of written bytes completes with their value in RES (R149). -/
theorem exec_unpackInstr_of_bytesAt {k : Kind} (hfits : BufferFits s)
    (hlen : bs.length = min k.width (s.ibufLen.bits.toNat - s.off.bits.toNat))
    (hbytes : BytesAt s.ibuf s.off.bits.toNat bs) :
    exec k.unpackInstr s = .next (complete { res := some (k.unpack bs) } s) := by
  have hread := readBytes_ibuf_of_bytesAt hfits (hlen.trans_le (min_le_right _ _)) hbytes
  rw [hlen] at hread
  rw [exec_unpackInstr, unpackBody, readOff, readIbufLen]
  simp only [readOperand_eq, andThen_next, remaining, hread]

/-- Settles O22: RES is `Kind.unpack` of the bytes. -/
theorem unpackZeroPadsTheRemainder : Obligations.UnpackZeroPadsTheRemainder := by
  refine ⟨⟨decode_encode .unpackUint32, decode_encode .unpackFloat32, decode_encode .unpackInt64,
    decode_encode .unpackUint64, decode_encode .unpackFloat64⟩, fun s i n bs hi _ hfits hlen hbytes => ?_⟩
  obtain ⟨k, hk, rfl, rfl⟩ : ∃ k : Kind, k ≠ .int32 ∧ i = k.unpackInstr ∧ n = k.width := by
    rcases hi with ⟨rfl, rfl | rfl⟩ | ⟨rfl, rfl | rfl | rfl⟩
    exacts [⟨.uint32, nofun, rfl, rfl⟩, ⟨.float32, nofun, rfl, rfl⟩, ⟨.int64, nofun, rfl, rfl⟩,
      ⟨.uint64, nofun, rfl, rfl⟩, ⟨.float64, nofun, rfl, rfl⟩]
  exact ⟨_, _, exec_unpackInstr_of_bytesAt hfits hlen hbytes, ended_finish .ok _ s, sinkFrame_finish .ok _ s,
    Kind.unpack_toNat hk (hlen.trans_le (min_le_left _ _))⟩

/-- Settles O23: RES is the sign-extended word of the bytes. -/
theorem unpackInt32SignExtends : Obligations.UnpackInt32SignExtends :=
  ⟨decode_encode .unpackInt32, fun s _ _ hfits hlen hbytes =>
    ⟨_, _, exec_unpackInstr_of_bytesAt (k := .int32) hfits hlen hbytes, ended_finish .ok _ s, sinkFrame_finish .ok _ s,
      Kind.unpack_int32_toInt (hlen.trans_le (min_le_left _ _))⟩⟩

/-! The round trip (R158). -/

/-- A line that answers hands on to the lines after it (R91). -/
theorem runLines_cons {x : Line} {t : State} (h : runLine x s = .next t) (ls : List Line) :
    runLines (x :: ls) s = runLines ls t := by
  rw [runLines, h, andThen_next]

/-- The lines `VAL := v; PACK.k` leave the bytes of `v` in OBUF (R142). -/
theorem runLines_pack (k : Kind) (v : DWord) (ls : List Line) (s : State) :
    ∃ t, runLines (.write .val (.const v.toNat) :: .command k.packInstr :: ls) s = runLines ls t ∧
      HoldsBytes t (some (k.pack v)) ∧ t.build = s.build := by
  have hwrite : runLine (.write .val (.const v.toNat)) s = .next { nextLine s with val := .holding v } := by
    rw [runLine_write_const, hostWrite, ofInt_toNat_self]
  have hpack := (runLine_command k.packInstr { nextLine s with val := .holding v }).trans (exec_packInstr k _)
  exact ⟨_, (runLines_cons hwrite _).trans (runLines_cons hpack ls), (ended_finish ..).bytes, rfl⟩

/-- The state UNPACK.k runs in at the end of the lines `IBUF := bs; OFF := 0; UNPACK.k`. -/
def atUnpack (k : Kind) (bs : List Byte) (s : State) : State :=
  setCmd (encode k.unpackInstr) (nextLine { nextLine (withBuffer bs (nextLine s)) with off := .holding 0#32 })

/-- UNPACK.k of the W bytes that fill the buffer (R149). -/
theorem exec_atUnpack {k : Kind} (hlen : bs.length = k.width) (hfits : bs.length ≤ s.build.ibufMax.toNat) :
    exec k.unpackInstr (atUnpack k bs s) = .next (complete { res := some (k.unpack bs) } (atUnpack k bs s)) := by
  have hibufLen : (atUnpack k bs s).ibufLen.bits.toNat = bs.length := toNat_ofNat_of_fits hfits
  refine exec_unpackInstr_of_bytesAt (hibufLen.trans_le hfits) ?_ (bytesAt_withBuffer bs _)
  rw [hibufLen, ← hlen]
  exact (min_self _).symm

/-- The lines `IBUF := OBUF; OFF := 0; UNPACK.k` unpack the bytes a command left in OBUF (R149, R206). -/
theorem runLines_unpack {k : Kind} (h : HoldsBytes s (some bs)) (hlen : bs.length = k.width)
    (hmax : 8 ≤ s.build.ibufMax.toNat) :
    ∃ t, runLines [.copyObuf, .write .off (.const 0), .command k.unpackInstr] s = .next t ∧
      t.status = ⟨0x00#8, true⟩ ∧ t.res = some (k.unpack bs) := by
  have hshort : bs.length ≤ 8 := hlen.trans_le k.width_le_eight
  have hfits : bs.length ≤ s.build.ibufMax.toNat := hshort.trans hmax
  have hobuf : bs.length ≤ spaceSize s.build .obuf := (hshort.trans (by decide)).trans (le_max_left 10 _)
  have hcopy : runLine .copyObuf s = .next (withBuffer bs (nextLine s)) :=
    hostCopyObuf_of_holdsBytes (s := nextLine s) h hobuf hfits
  have hunpack := (runLine_command k.unpackInstr _).trans (exec_atUnpack hlen hfits)
  exact ⟨_, (runLines_cons hcopy _).trans ((runLines_cons rfl _).trans (runLines_cons hunpack _)), rfl, rfl⟩

/-- Settles O24: le_word_W inverts le_bytes_W at every kind (R64). -/
theorem packUnpackRoundTrip : Obligations.PackUnpackRoundTrip := by
  intro s v r p u hmax hkind
  obtain ⟨k, rfl, rfl, rfl⟩ : ∃ k : Kind, p = k.packInstr ∧ u = k.unpackInstr ∧ r = k.unpack (k.pack v) := by
    have hword := leWord_leBytes 4 (v.extractLsb' 0 32)
    have hdword := (leWord_leBytes 8 v).symm
    rcases hkind with ⟨rfl, rfl, rfl⟩ | ⟨rfl, rfl, rfl⟩ | ⟨rfl, rfl, rfl⟩ | ⟨rfl, rfl, rfl⟩ | ⟨rfl, rfl, rfl⟩ |
      ⟨rfl, rfl, rfl⟩
    · exact ⟨.int32, rfl, rfl, congrArg (BitVec.signExtend 64) hword.symm⟩
    · exact ⟨.uint32, rfl, rfl, congrArg (BitVec.setWidth 64) hword.symm⟩
    · exact ⟨.float32, rfl, rfl, congrArg (BitVec.setWidth 64) hword.symm⟩
    · exact ⟨.int64, rfl, rfl, hdword⟩
    · exact ⟨.uint64, rfl, rfl, hdword⟩
    · exact ⟨.float64, rfl, rfl, hdword⟩
  obtain ⟨t, hpack, hbytes, hbuild⟩ := runLines_pack k v
    [.copyObuf, .write .off (.const 0), .command k.unpackInstr] s
  obtain ⟨w, hunpack, hstatus, hres⟩ := runLines_unpack hbytes (k.pack_length v) (hbuild ▸ hmax)
  exact ⟨w, hpack.trans hunpack, hstatus, hres⟩

end Sys2Proof.Machine
end

section
/-! The byte sink: SINK_APPEND (O25), SINK_LEN (O27), the two commands that read the sink (O28, O29, O31), SINK_CLEAR (O32),
and the codec commands, which leave it alone (O33). SINK_BYTES and an in-range SINK_SLICE are both `sinkOutput` of a range. -/

namespace Sys2Proof.Machine

open Sys2Proof Sys2Proof.Safety

variable {s : State} {bs : List Byte}

/-! Appending (R62, R161). -/

theorem bytesAt_writeList (m : Mem) (a : Nat) (bs : List Byte) : BytesAt (Mem.writeList m a bs) a bs := by
  intro i b hb
  have hi : i < bs.length := (List.getElem?_eq_some_iff.1 hb).1
  rw [Mem.read_writeList, if_pos ⟨Nat.le_add_right a i, Nat.add_lt_add_left hi a⟩, Nat.add_sub_cancel_left, hb]

theorem Mem.read_writeList_of_outside {a a' : Nat} (h : a' < a ∨ a + bs.length ≤ a') (m : Mem) :
    Mem.read (Mem.writeList m a bs) a' = Mem.read m a' := by
  rw [Mem.read_writeList, if_neg (by omega)]

/-- Settles O25: the append writes the buffer's bytes from LEN upwards, and CAP keeps LEN from wrapping. -/
theorem appendCopiesTheBuffer : Obligations.AppendCopiesTheBuffer := fun s bs _ hfits hcap hlen hbytes =>
  ⟨_, exec_sinkAppend_of_bytes hlen hfits hbytes hcap, ended_finish_of_frame (commandFrame_append _ _ bs s) .ok {},
    BitVec.toNat_add_of_lt (hcap.trans_lt s.build.cap.isLt), bytesAt_writeList s.sink _ bs,
    fun _ ha => Mem.read_writeList_of_outside ha s.sink⟩

/-! Reading the sink into OBUF (R163, R164). -/

/-- Completes with SINK[a .. a + n) in OBUF: what SINK_BYTES and an in-range SINK_SLICE do. -/
def sinkOutput (s : State) (a n : Nat) : Host.Outcome State Fault Refusal :=
  andThen (readBytes .sink s a n) fun bs => .next (complete { bytes := some bs } s)

theorem exec_sinkBytes (s : State) : exec .sinkBytes s = sinkOutput s 0 s.len.toNat := rfl

theorem exec_sinkSlice_of_inRange (hbegin : 1 ≤ s.beginReg.bits.toNat)
    (hend : s.beginReg.bits.toNat ≤ s.endReg.bits.toNat) (hlen : s.endReg.bits.toNat ≤ s.len.toNat) :
    exec .sinkSlice s =
      sinkOutput s (s.beginReg.bits.toNat - 1) (s.endReg.bits.toNat - s.beginReg.bits.toNat + 1) := by
  simp only [exec, execSinkSlice, readBegin, readEnd, readOperand_eq, andThen_next]
  rw [if_neg (by omega), sinkOutput]

theorem exec_sinkSlice_of_outOfRange (h : s.beginReg.bits.toNat < 1 ∨ s.endReg.bits.toNat < s.beginReg.bits.toNat ∨
    s.len.toNat < s.endReg.bits.toNat) : exec .sinkSlice s = .next (raise .outOfRange s) := by
  simp only [exec, execSinkSlice, readBegin, readEnd, readOperand_eq, andThen_next]
  rw [if_pos h]

/-- Written bytes of the sink below CAP are output. -/
theorem sinkOutput_of_bytesAt {a : Nat} (hcap : a + bs.length ≤ s.build.cap.toNat) (hbytes : BytesAt s.sink a bs) :
    sinkOutput s a bs.length = .next (complete { bytes := some bs } s) := by
  have hread : readBytes .sink s a bs.length = .next bs := by
    refine readBytes_eq_next.2 ⟨rfl, fun i b hb => ⟨?_, hbytes i b hb⟩⟩
    have hi : i < bs.length := (List.getElem?_eq_some_iff.1 hb).1
    rw [spaceSize_sink]
    omega
  rw [sinkOutput, hread, andThen_next]

/-- Settles O28: the range is SINK[0 .. LEN). -/
theorem sinkBytesGivesTheContents : Obligations.SinkBytesGivesTheContents := by
  refine ⟨decode_encode .sinkBytes, fun s bs hcap hlen hbytes => ?_⟩
  have hexec := exec_sinkBytes s
  rw [← hlen, sinkOutput_of_bytesAt (by omega) hbytes] at hexec
  exact ⟨_, hexec, ended_finish .ok _ s, sinkFrame_finish .ok _ s⟩

/-- Settles O29: the range is SINK[BEGIN - 1 .. END). -/
theorem sliceGivesTheRange : Obligations.SliceGivesTheRange := by
  intro s bs _ hcap hbegin hend hlen hcount hbytes
  have hexec := exec_sinkSlice_of_inRange hbegin hend hlen
  rw [← hcount, sinkOutput_of_bytesAt (by omega) hbytes] at hexec
  exact ⟨_, hexec, ended_finish .ok _ s, sinkFrame_finish .ok _ s⟩

/-- The slice from 1 to LEN outputs the range of SINK_BYTES (R167). -/
theorem exec_sinkSlice_of_whole (hlen : 1 ≤ s.len.toNat) (hbegin : s.beginReg.bits = 1#32)
    (hend : s.endReg.bits = s.len) : exec .sinkSlice s = exec .sinkBytes s := by
  have hone : s.beginReg.bits.toNat = 1 := by rw [hbegin]; rfl
  rw [exec_sinkBytes, exec_sinkSlice_of_inRange hone.ge (by rwa [hone, hend]) (by rw [hend]), hone, hend,
    Nat.sub_self, Nat.sub_add_cancel hlen]

/-- Settles O31: the whole range is SINK_BYTES's, and `slice(1, 0)` has BEGIN > END. -/
theorem sliceLaws : Obligations.SliceLaws := by
  intro s _
  refine ⟨exec_sinkSlice_of_whole, fun h => ⟨_, exec_sinkSlice_of_outOfRange (.inr h), rfl⟩,
    fun hlen hbegin hend => ⟨⟨_, exec_sinkSlice_of_outOfRange (.inr (.inl ?_)), rfl⟩, ?_⟩⟩
  · rw [hbegin, hend]
    decide
  · have hexec : exec .sinkBytes s = .next (complete { bytes := some [] } s) := by rw [exec_sinkBytes, hlen]; rfl
    exact ⟨_, hexec, rfl, (ended_finish .ok { bytes := some [] } s).bytes⟩

/-! LEN alone (R162, R165). -/

/-- Settles O27: RES is LEN, zero-extended to its width. -/
theorem sinkLenGivesLen : Obligations.SinkLenGivesLen :=
  ⟨decode_encode .sinkLen, fun s => ⟨_, s.len.setWidth 64, rfl, ended_finish .ok _ s,
    BitVec.toNat_setWidth_of_le (by decide), sinkFrame_finish .ok _ s⟩⟩

/-- Settles O32: the command changes LEN alone before it ends. -/
theorem clearEmptiesTheSink : Obligations.ClearEmptiesTheSink :=
  ⟨decode_encode .sinkClear, fun s => ⟨_, rfl, ended_finish_of_frame (commandFrame_setLen 0#32 s) .ok {}, rfl,
    fun _ => rfl⟩⟩

/-! The other commands (R169). -/

/-- Settles O33: only an append and a clear end with a change of the sink. -/
theorem codecCommandsLeaveTheSink : Obligations.CodecCommandsLeaveTheSink := by
  intro i s t hi h
  cases exec_ends h with
  | error st hst => exact sinkFrame_finish st {} s
  | results r hr => exact sinkFrame_finish .ok r s
  | append bs happend hn hc hb => exact absurd (congrArg subBlock happend) hi
  | clear hclear => exact absurd (congrArg subBlock hclear) hi

end Sys2Proof.Machine
end

section
/-! The errors: where each command reports one (O12, O26, O30), that an error changes the result registers alone (O37), and
that no command is refused (O41). Every error is a `finish` of the state it met, with an error status and no result. -/

namespace Sys2Proof.Machine

open Sys2Proof Sys2Proof.Safety

variable {i : Instr} {s t : State}

/-- A command that raises an error writes its code and ⊥ elsewhere, and changes nothing else (R186). -/
theorem exec_reports {e : Status} (h : exec i s = .next (raise e s)) :
    ∃ t, exec i s = .next t ∧ Ended s t e.code none none none ∧ SinkFrame s t :=
  ⟨_, h, ended_finish e {} s, sinkFrame_finish e {} s⟩

/-- Settles O12: every byte the scan may read lies inside IBUF and is passed, so the scan is malformed. -/
theorem malformedVarintIsReported : Obligations.MalformedVarintIsReported := by
  intro s i hi _ hfits hnone
  have hpass : ∀ m, m < 10 → s.off.bits.toNat + m < s.ibufLen.bits.toNat → Passes s s.off.bits.toNat m := by
    intro m hm hin
    obtain ⟨b, hread, hbit⟩ := hnone m hm hin
    exact ⟨b, readByte_eq_next.2 ⟨hin.trans_le hfits, hread⟩, hbit⟩
  obtain ⟨found, hexec⟩ := exec_eq_scanBody hi s
  exact exec_reports (e := .malformedVarint) (hexec.trans (scanBody_malformed hpass found))

/-- An append past CAP is answered before any byte is read (R161, R182). -/
theorem exec_sinkAppend_of_pastCapacity (h : s.build.cap.toNat < s.len.toNat + s.ibufLen.bits.toNat) :
    exec .sinkAppend s = .next (raise .capacityExceeded s) := by
  simp only [exec, execSinkAppend, readIbufLen, readOperand_eq, andThen_next]
  rw [if_pos h]

/-- Settles O26: the append raises the error. -/
theorem appendPastCapacityIsReported : Obligations.AppendPastCapacityIsReported :=
  fun _ _ h => exec_reports (e := .capacityExceeded) (exec_sinkAppend_of_pastCapacity h)

/-- Settles O30: the slice raises the error. -/
theorem sliceOutOfRangeIsReported : Obligations.SliceOutOfRangeIsReported :=
  fun _ _ h => exec_reports (e := .outOfRange) (exec_sinkSlice_of_outOfRange h)

/-- Of the ways a command ends, only an error has a status other than OK. -/
theorem Ends.eq_error (h : Ends i s t) (hst : t.status ≠ ⟨0x00#8, true⟩) : ∃ st, t = finish st {} s := by
  cases h with
  | error st _ => exact ⟨st, rfl⟩
  | results | append | clear => exact absurd rfl hst

/-- A word that reports an error has taken CMD and then only finished, a command's or not (R85, R86, R186). -/
theorem issue_eq_error {w : Word} (h : issue w s = .next t) (hst : t.status ≠ ⟨0x00#8, true⟩) :
    ∃ st, t = finish st {} (setCmd w s) := by
  rcases issue_cases w s with ⟨i, -, hissue⟩ | ⟨st, -, hissue⟩ <;> rw [hissue] at h
  · exact (exec_ends h).eq_error hst
  · cases h
    exact ⟨st, rfl⟩

/-- Settles O37: the state is a `finish` without results, and its code is the status it wrote. -/
theorem errorsArePrecise : Obligations.ErrorsArePrecise := by
  intro w s t c h hstatus hc
  obtain ⟨st, rfl⟩ := issue_eq_error h (by simpa [hstatus] using hc)
  obtain rfl : st.code = c := by simpa using hstatus
  exact ⟨ended_finish st {} (setCmd w s), rfl, rfl⟩

/-- Settles O41: `exec_ne_refused` follows each command to its byte reads, which fault or answer. -/
theorem noCommandIsRefused : Obligations.NoCommandIsRefused := exec_ne_refused

end Sys2Proof.Machine
end

section
/-! Reset and hazards: what a command leaves to the one after it (O38), when every command completes (O43), a host that has
stopped (O53), and SINK_CLEAR beside reset (O55). -/

namespace Sys2Proof.Machine

open Sys2Proof Sys2Proof.Safety

/-- Settles O38: the old results lie outside what a command sees, which is the build, CMD, the operands, IBUF, the sink and
the host. -/
theorem oldResultsDoNotMatter : Obligations.OldResultsDoNotMatter := by
  intro i s status res noff olen obuf
  have hframe : CommandFrame s { s with status := status, res := res, noff := noff, olen := olen, obuf := obuf } :=
    ⟨rfl, rfl, rfl, rfl, rfl, rfl, rfl, rfl, rfl⟩
  exact hframe.exec_congr ⟨rfl, rfl⟩ i

/-- Settles O43: of the three outcomes no command is refused (O41), and a fault would be on an unwritten byte of the buffer
(O42). -/
theorem writtenInputLetsEveryCommandComplete : Obligations.WrittenInputLetsEveryCommandComplete := by
  intro i s hinv hwritten
  cases h : exec i s with
  | next t => exact ⟨t, rfl⟩
  | fault e =>
    obtain ⟨a, -, ha, hbottom⟩ := commandsFaultOnUnwrittenInputOnly i s e hinv h
    exact absurd hbottom (Option.isSome_iff_ne_none.1 (hwritten a ha))
  | refused r => exact absurd h (noCommandIsRefused i s r)

theorem step_of_no_line {s : State} (h : currentLine s = none) : step s = .next s := by simp only [step, h]

/-- Settles O53: `halt` is a line that leaves the state alone, and without a line the step does. -/
theorem idleHostChangesNothing : Obligations.IdleHostChangesNothing := by
  rintro s (hhalt | hnone)
  · exact step_of_currentLine hhalt
  · exact step_of_no_line hnone

/-- Settles O55: SINK_CLEAR's side is O32, reset's is O54. -/
theorem clearAndResetDiffer : Obligations.ClearAndResetDiffer := by
  intro s
  obtain ⟨-, hclear⟩ := clearEmptiesTheSink
  obtain ⟨t, hexec, hended, hlen, -⟩ := hclear s
  obtain ⟨-, hreset⟩ := resetLeavesTheSpecsValues
  obtain ⟨-, hstatus, -, -, -, hresetLen, hbytes, hoperands, -⟩ := hreset s (assertReset s) (.inr rfl)
  exact ⟨t, hexec, hlen.trans hresetLen.symm, hended, hstatus, fun a => (hbytes a).1, hoperands⟩

end Sys2Proof.Machine
end
